-- ==== Sys2Proof/Word.lean ====
section
/-! DEFINITION. The two word types of the CORE (spec R10: every value is a u8 or a u16) and their plainest arithmetic. -/

namespace Sys2Proof

/-- A `u8` of spec R10: a register, a memory byte, an instruction byte. -/
abbrev Byte := BitVec 8

/-- A `u16` of spec R10: an address, the pc, the sp, an operand value. -/
abbrev Word := BitVec 16

/-- `zext16(v)` of spec R10. -/
abbrev Byte.zext16 (v : Byte) : Word := v.setWidth 16

/-- `low8(v)` of spec R10. -/
abbrev Word.low8 (v : Word) : Byte := v.setWidth 8

/-- `h:l` of spec R10: the 16-bit value `h*256 + l`. -/
abbrev Byte.pairWith (h l : Byte) : Word := h ++ l

/-- The high byte of a u16: `h` of `h:l`. -/
abbrev Word.high8 (v : Word) : Byte := v.extractLsb' 8 8

end Sys2Proof
end

