-- ==== Sys2Proof/Syntax.lean ====
section
/-! DEFINITION. The instructions: one constructor of `Instr` per row of spec/opcode_table.json (spec R62, R68). -/

namespace Sys2Proof

/-- The eight values of the mode field, bits 7..5 of the instruction byte (spec R63), named by the operand mode each
selects. NOOP, NOT and the illegal opcodes carry the field and ignore it (R70, R75). -/
inductive Mode where
  | imm8 | mem8 | reg | imm16 | mem16 | pair | carry | pc
  deriving DecidableEq, Repr

/-- An operand: a mode together with the operand bytes it consumes (spec R63, R67). Register indices are whole bytes:
an index of 8 or more is a legal encoding that faults when it is used (R70). -/
inductive Operand where
  /-- Mode 0: the value byte. -/
  | imm8 (v : Byte)
  /-- Mode 1: an 8-bit address. -/
  | mem8 (a : Byte)
  /-- Mode 2: a register index. -/
  | reg (i : Byte)
  /-- Mode 3: a 16-bit value, high byte first in the instruction stream. -/
  | imm16 (v : Word)
  /-- Mode 4: a 16-bit address, high byte first in the instruction stream. -/
  | mem16 (a : Word)
  /-- Mode 5: the index of the high register, then that of the low register. -/
  | pair (hi lo : Byte)
  /-- Mode 6: the carry flag; no bytes. -/
  | carry
  /-- Mode 7: the program counter; no bytes. -/
  | pc
  deriving DecidableEq, Repr

/-- The instructions. The names follow the mnemonics of spec/opcode_table.json; LAWS.json gives the map. -/
inductive Instr where
  /-- HALT, byte 0xFF (R74). -/
  | halt
  /-- NOOP, opcode 0, any mode (R91). -/
  | noop (m : Mode)
  /-- LDA, opcode 1 (R92). -/
  | lda (o : Operand)
  /-- SAM, opcode 2 (R93). -/
  | sam (o : Operand)
  /-- SAR, opcode 3 (R94). -/
  | sar (o : Operand)
  /-- JMP, byte 0x04 and the target byte (R96). -/
  | jmp (t : Byte)
  /-- JZ, byte 0x24 and the target byte (R97). -/
  | jz (t : Byte)
  /-- JNZ, byte 0x44 and the target byte (R98). -/
  | jnz (t : Byte)
  /-- JMP.m3, byte 0x64: illegal condition (R99). -/
  | jmpM3 (t : Byte)
  /-- JMP.m4, byte 0x84: illegal condition (R99). -/
  | jmpM4 (t : Byte)
  /-- JMP.m5, byte 0xA4: illegal condition (R99). -/
  | jmpM5 (t : Byte)
  /-- JMP.m6, byte 0xC4: illegal condition (R99). -/
  | jmpM6 (t : Byte)
  /-- JMP.m7, byte 0xE4: illegal condition (R99). -/
  | jmpM7 (t : Byte)
  /-- PSH, opcode 5 (R100). -/
  | psh (o : Operand)
  /-- POP.pc, byte 0xE6 (R102). -/
  | popPc
  /-- POP, opcode 6, modes 0..6 (R101). -/
  | pop (o : Operand)
  /-- CMP, opcode 7 (R104). -/
  | cmp (o : Operand)
  /-- ADD, opcode 8 (R105). -/
  | add (o : Operand)
  /-- AND, opcode 9 (R106). -/
  | and (o : Operand)
  /-- OR, opcode 10 (R107). -/
  | or (o : Operand)
  /-- NOT, opcode 11, any mode (R108). -/
  | not (m : Mode)
  /-- SHR, opcode 12 (R109). -/
  | shr (o : Operand)
  /-- SHL, opcode 13 (R110). -/
  | shl (o : Operand)
  /-- UNKNOWN.14, an illegal opcode with its mode bits (R75). So are the constructors after it. -/
  | unknown14 (m : Mode)
  /-- UNKNOWN.15, illegal (R75). -/
  | unknown15 (m : Mode)
  /-- UNKNOWN.16, illegal (R75). -/
  | unknown16 (m : Mode)
  /-- UNKNOWN.17, illegal (R75). -/
  | unknown17 (m : Mode)
  /-- UNKNOWN.18, illegal (R75). -/
  | unknown18 (m : Mode)
  /-- UNKNOWN.19, illegal (R75). -/
  | unknown19 (m : Mode)
  /-- UNKNOWN.20, illegal (R75). -/
  | unknown20 (m : Mode)
  /-- UNKNOWN.21, illegal (R75). -/
  | unknown21 (m : Mode)
  /-- UNKNOWN.22, illegal (R75). -/
  | unknown22 (m : Mode)
  /-- UNKNOWN.23, illegal (R75). -/
  | unknown23 (m : Mode)
  /-- UNKNOWN.24, illegal (R75). -/
  | unknown24 (m : Mode)
  /-- UNKNOWN.25, illegal (R75). -/
  | unknown25 (m : Mode)
  /-- UNKNOWN.26, illegal (R75). -/
  | unknown26 (m : Mode)
  /-- UNKNOWN.27, illegal (R75). -/
  | unknown27 (m : Mode)
  /-- UNKNOWN.28, illegal (R75). -/
  | unknown28 (m : Mode)
  /-- UNKNOWN.29, illegal (R75). -/
  | unknown29 (m : Mode)
  /-- UNKNOWN.30, illegal (R75). -/
  | unknown30 (m : Mode)
  /-- UNKNOWN.31, illegal (R75); byte 0xFF is HALT instead. -/
  | unknown31 (m : Mode)
  deriving DecidableEq, Repr

end Sys2Proof
end

