-- ==== Sys2Proof/WellFormed.lean ====
section
/-! DEFINITION. Which terms of `Instr` are instructions: every term but the two whose words belong to another row of the
opcode table (spec R68: byte 0xE6 is POP.pc, byte 0xFF is HALT). -/

namespace Sys2Proof

/-- The instruction has an encoding of its own: POP takes modes 0..6 (R101, R102), and opcode 31 with mode 7 is the byte
0xFF, which is HALT (R61). Every operand byte is admitted, register indices of 8 and more included (R70). -/
def Instr.wf : Instr → Bool
  | .halt => true
  | .noop _ => true
  | .lda _ => true
  | .sam _ => true
  | .sar _ => true
  | .jmp _ => true
  | .jz _ => true
  | .jnz _ => true
  | .jmpM3 _ => true
  | .jmpM4 _ => true
  | .jmpM5 _ => true
  | .jmpM6 _ => true
  | .jmpM7 _ => true
  | .psh _ => true
  | .popPc => true
  | .pop o => decide (o ≠ .pc)
  | .cmp _ => true
  | .add _ => true
  | .and _ => true
  | .or _ => true
  | .not _ => true
  | .shr _ => true
  | .shl _ => true
  | .unknown14 _ => true
  | .unknown15 _ => true
  | .unknown16 _ => true
  | .unknown17 _ => true
  | .unknown18 _ => true
  | .unknown19 _ => true
  | .unknown20 _ => true
  | .unknown21 _ => true
  | .unknown22 _ => true
  | .unknown23 _ => true
  | .unknown24 _ => true
  | .unknown25 _ => true
  | .unknown26 _ => true
  | .unknown27 _ => true
  | .unknown28 _ => true
  | .unknown29 _ => true
  | .unknown30 _ => true
  | .unknown31 m => decide (m ≠ .pc)

end Sys2Proof
end

