-- ==== Sys2Proof/Decode.lean ====
section
/-! DEFINITION. Decoding bytes into instructions and encoding them back (spec R61 to R70). -/

namespace Sys2Proof

/-- Why a byte list holds no instruction. Every first byte has a meaning (R68), so a list is rejected only for want of bytes. -/
inductive DecodeError where
  /-- There is no instruction byte. -/
  | noInstructionByte
  /-- The instruction byte is there, its operand or target bytes are not all there. -/
  | missingOperandBytes
  deriving DecidableEq, Repr

/-- `opcode = b[4:0]` (R61). -/
def opcodeOf (b : Byte) : BitVec 5 := b.extractLsb' 0 5

/-- `mode = b[7:5]` (R61). -/
def modeBitsOf (b : Byte) : BitVec 3 := b.extractLsb' 5 3

/-- `b = (mode << 5) | opcode` (R61). -/
def headByte (m : BitVec 3) (op : BitVec 5) : Byte := m ++ op

/-- The mode a value of the mode field names (R63). -/
def modeOf (m : BitVec 3) : Mode :=
  match m.toNat with
  | 0 => .imm8
  | 1 => .mem8
  | 2 => .reg
  | 3 => .imm16
  | 4 => .mem16
  | 5 => .pair
  | 6 => .carry
  | _ => .pc

/-- The value of the mode field (R63). -/
def Mode.bits : Mode → BitVec 3
  | .imm8 => 0
  | .mem8 => 1
  | .reg => 2
  | .imm16 => 3
  | .mem16 => 4
  | .pair => 5
  | .carry => 6
  | .pc => 7

/-- The operand bytes a mode consumes: 1, 1, 1, 2, 2, 2, 0, 0 (R63). -/
def Mode.bytes : Mode → Nat
  | .imm8 => 1
  | .mem8 => 1
  | .reg => 1
  | .imm16 => 2
  | .mem16 => 2
  | .pair => 2
  | .carry => 0
  | .pc => 0

/-- The mode of an operand. -/
def Operand.mode : Operand → Mode
  | .imm8 _ => .imm8
  | .mem8 _ => .mem8
  | .reg _ => .reg
  | .imm16 _ => .imm16
  | .mem16 _ => .mem16
  | .pair _ _ => .pair
  | .carry => .carry
  | .pc => .pc

/-- The operand bytes of an operand, in stream order: 16-bit values and addresses high byte first, the high register's
index first (R63, R84 to R86, D9). -/
def Operand.stream : Operand → List Byte
  | .imm8 v => [v]
  | .mem8 a => [a]
  | .reg i => [i]
  | .imm16 v => [v.high8, v.low8]
  | .mem16 a => [a.high8, a.low8]
  | .pair hi lo => [hi, lo]
  | .carry => []
  | .pc => []

/-- How many operand bytes an operand consumes (R63). -/
def Operand.bytes (o : Operand) : Nat := o.mode.bytes

/-- The operand of a mode and the two bytes after the instruction byte; a byte the mode does not consume is not looked at
(R63, R67). -/
def operandOf (m : Mode) (x y : Byte) : Operand :=
  match m with
  | .imm8 => .imm8 x
  | .mem8 => .mem8 x
  | .reg => .reg x
  | .imm16 => .imm16 (x.pairWith y)
  | .mem16 => .mem16 (x.pairWith y)
  | .pair => .pair x y
  | .carry => .carry
  | .pc => .pc

/-- Opcode 4: the mode field is a condition (R64), 3..7 illegal (R70). -/
def jumpOf (m : Mode) (t : Byte) : Instr :=
  match m with
  | .imm8 => .jmp t
  | .mem8 => .jz t
  | .reg => .jnz t
  | .imm16 => .jmpM3 t
  | .mem16 => .jmpM4 t
  | .pair => .jmpM5 t
  | .carry => .jmpM6 t
  | .pc => .jmpM7 t

/-- Opcode 6: mode 7 is POP.pc, which has no operand (R63, R102). -/
def popOf (m : Mode) (x y : Byte) : Instr :=
  match m with
  | .imm8 => .pop (.imm8 x)
  | .mem8 => .pop (.mem8 x)
  | .reg => .pop (.reg x)
  | .imm16 => .pop (.imm16 (x.pairWith y))
  | .mem16 => .pop (.mem16 (x.pairWith y))
  | .pair => .pop (.pair x y)
  | .carry => .pop .carry
  | .pc => .popPc

/-- The instruction of an opcode and a mode, the byte 0xFF aside (R62, R68). -/
def instrOfFields (op : BitVec 5) (m : Mode) (x y : Byte) : Instr :=
  match op.toNat with
  | 0 => .noop m
  | 1 => .lda (operandOf m x y)
  | 2 => .sam (operandOf m x y)
  | 3 => .sar (operandOf m x y)
  | 4 => jumpOf m x
  | 5 => .psh (operandOf m x y)
  | 6 => popOf m x y
  | 7 => .cmp (operandOf m x y)
  | 8 => .add (operandOf m x y)
  | 9 => .and (operandOf m x y)
  | 10 => .or (operandOf m x y)
  | 11 => .not m
  | 12 => .shr (operandOf m x y)
  | 13 => .shl (operandOf m x y)
  | 14 => .unknown14 m
  | 15 => .unknown15 m
  | 16 => .unknown16 m
  | 17 => .unknown17 m
  | 18 => .unknown18 m
  | 19 => .unknown19 m
  | 20 => .unknown20 m
  | 21 => .unknown21 m
  | 22 => .unknown22 m
  | 23 => .unknown23 m
  | 24 => .unknown24 m
  | 25 => .unknown25 m
  | 26 => .unknown26 m
  | 27 => .unknown27 m
  | 28 => .unknown28 m
  | 29 => .unknown29 m
  | 30 => .unknown30 m
  | _ => .unknown31 m

/-- The instruction whose first byte is `b` and whose next two bytes are `x` and `y`, as far as it has them. The byte 0xFF
is tested first and is HALT (R61). -/
def instrOf (b x y : Byte) : Instr :=
  if b = 0xFF then .halt else instrOfFields (opcodeOf b) (modeOf (modeBitsOf b)) x y

/-- How many bytes of the stream an opcode and a mode consume after the instruction byte: `Length(b) - 1` of R66, and none for
an illegal opcode, which faults before any operand byte is read (R75). -/
def operandBytesOfFields (op : BitVec 5) (m : Mode) : Nat :=
  match op.toNat with
  | 0 => 0
  | 4 => 1
  | 11 => 0
  | n => if 13 < n then 0 else m.bytes

/-- How many bytes follow the instruction byte `b` (R66). -/
def operandBytes (b : Byte) : Nat :=
  if b = 0xFF then 0 else operandBytesOfFields (opcodeOf b) (modeOf (modeBitsOf b))

/-- The instruction byte selects operand mode 5, whose first index is checked before its second byte is fetched (R80, R86). -/
def headTakesPair (b : Byte) : Bool :=
  decide (operandBytes b = 2) && decide (modeOf (modeBitsOf b) = .pair)

/-- Decodes the instruction at the head of a byte list and answers it with the rest of the list. -/
def decode : List Byte → Except DecodeError (Instr × List Byte)
  | [] => .error .noInstructionByte
  | b :: rest =>
    match operandBytes b, rest with
    | 0, rest => .ok (instrOf b 0 0, rest)
    | 1, x :: rest => .ok (instrOf b x 0, rest)
    | 2, x :: y :: rest => .ok (instrOf b x y, rest)
    | _, _ => .error .missingOperandBytes

/-- An instruction of format M: the mode of the operand, the opcode, the operand bytes (R65). -/
def encodeM (op : BitVec 5) (o : Operand) : List Byte := headByte o.mode.bits op :: o.stream

/-- An instruction of format N: the mode and the opcode (R65). -/
def encodeN (op : BitVec 5) (m : Mode) : List Byte := [headByte m.bits op]

/-- The bytes of an instruction, first byte first, written from R61 to R65 and the opcode table of R62. -/
def encode : Instr → List Byte
  | .halt => [0xFF]
  | .noop m => encodeN 0 m
  | .lda o => encodeM 1 o
  | .sam o => encodeM 2 o
  | .sar o => encodeM 3 o
  | .jmp t => [0x04, t]
  | .jz t => [0x24, t]
  | .jnz t => [0x44, t]
  | .jmpM3 t => [0x64, t]
  | .jmpM4 t => [0x84, t]
  | .jmpM5 t => [0xA4, t]
  | .jmpM6 t => [0xC4, t]
  | .jmpM7 t => [0xE4, t]
  | .psh o => encodeM 5 o
  | .popPc => [0xE6]
  | .pop o => encodeM 6 o
  | .cmp o => encodeM 7 o
  | .add o => encodeM 8 o
  | .and o => encodeM 9 o
  | .or o => encodeM 10 o
  | .not m => encodeN 11 m
  | .shr o => encodeM 12 o
  | .shl o => encodeM 13 o
  | .unknown14 m => encodeN 14 m
  | .unknown15 m => encodeN 15 m
  | .unknown16 m => encodeN 16 m
  | .unknown17 m => encodeN 17 m
  | .unknown18 m => encodeN 18 m
  | .unknown19 m => encodeN 19 m
  | .unknown20 m => encodeN 20 m
  | .unknown21 m => encodeN 21 m
  | .unknown22 m => encodeN 22 m
  | .unknown23 m => encodeN 23 m
  | .unknown24 m => encodeN 24 m
  | .unknown25 m => encodeN 25 m
  | .unknown26 m => encodeN 26 m
  | .unknown27 m => encodeN 27 m
  | .unknown28 m => encodeN 28 m
  | .unknown29 m => encodeN 29 m
  | .unknown30 m => encodeN 30 m
  | .unknown31 m => encodeN 31 m

/-- The three bytes an instruction of the opcode table's numbering occupies: bits 7..0 of `w` come first, then bits 15..8, then
bits 23..16, and every bit from `nbits` on is 0. -/
def tableBytes (nbits w : Nat) : List Byte :=
  let v := w % 2 ^ nbits
  [BitVec.ofNat 8 v, BitVec.ofNat 8 (v / 256), BitVec.ofNat 8 (v / 65536)]

/-- The instruction the decoder reads from the bits `w`, numbered as spec/opcode_table.json numbers them. -/
def decodeTableWord (nbits w : Nat) : Option Instr :=
  match decode (tableBytes nbits w) with
  | .ok (i, _) => some i
  | .error _ => none

end Sys2Proof
end

