-- ==== Sys2Proof/Config.lean ====
section
/-! DEFINITION. What the spec leaves free: the input snapshot the host supplies (R125, I6). Nothing else of the CORE is open. -/

namespace Sys2Proof

/-- The input snapshot of the `n`-th refresh service where the state names none (spec R125, I6: `any value`; D23).
It has no body: no proof can see what it is. Assumption log 5. -/
opaque Config.freeSnapshot (n : Nat) : Byte

end Sys2Proof
end

