-- ==== Sys2Proof/Machine/State.lean ====
section
/-! DEFINITION. The state of the CORE (spec 10_state.md), its faults (60_exceptions.md) and the state after reset. -/

namespace Sys2Proof.Machine

/-- A backing store, sparse: index and byte, indices strictly rising, no byte equal to `unlistedByte` (`Memory.wf`). -/
abbrev Memory := List Host.Cell

/-- What an index that is not listed reads as: 0, the reset value of every backing store and of the framebuffer (R36, D15),
and the byte a cartridge content holds where it lists none. Assumption log 2. -/
def unlistedByte : Byte := 0

/-- Why a step raises a fault, with the detail of R134. -/
inductive FaultCause where
  /-- Code 1. Raised by the instructions UNKNOWN.14 to UNKNOWN.31 (R75). Safe: the machine stops as the spec says. -/
  | unknownOpcode (byte : Byte)
  /-- Code 2. Raised by nothing: the mode field has three bits (R70, R80). Safe. -/
  | unknownMode (mode : Nat)
  /-- Code 3. Raised by JMP with modes 3..7 (R99). Safe: the machine stops as the spec says. -/
  | unknownJumpCondition (byte : Byte)
  /-- Code 4. Raised by the index check of operand modes 2 and 5, SAR and POP (R89). Safe: the machine stops as the spec says. -/
  | badRegisterIndex (index : Word)
  /-- Code 5. Raised by a write to the video window, by SAM or PSH (R43). Safe: the machine stops as the spec says. -/
  | readOnlyWrite (addr : Word)
  /-- Code 6. Raised by any access to the switchable bank with one ROM bank or none (R40). Safe: the machine stops as the spec says. -/
  | singleBankAccess (addr : Word)
  /-- Code 7. Raised by nothing: the decode leaves no gap (R46). Safe. -/
  | unmappedAddress (addr : Word)
  /-- Code 8. Raised by an access of the Cpu or the renderer to a content offset of L or more (R47, R48, R114, D7). Safe: the
  spec stops where the reference's behaviour is undefined. -/
  | contentOutOfRange (addr : Word) (offset : Nat)
  deriving DecidableEq, Repr

/-- The fault record of R133. The constructor is the record's `phase`. -/
inductive Fault where
  /-- Phase `cpu`: raised by a fetch or by an instruction. `pc0` is the instruction's address, `pc` the pc register when the
  fault was raised. Safe. -/
  | cpu (cause : FaultCause) (pc0 pc : Word)
  /-- Phase `render`: raised by the refresh service (R126). Both pcs are the pc after the step that requested it. Safe. -/
  | render (cause : FaultCause) (pc0 pc : Word)
  /-- Phase `load`, code 9: raised by the host's load of a truncated cartridge, before any state exists (R134); no step raises
  it. Safe. -/
  | load
  deriving DecidableEq, Repr

/-- Why the model has no step. -/
inductive Refusal where
  /-- An instruction that has no meaning yet. No instruction is left so. Safe. -/
  | notModelled (mnemonic : String)
  /-- `step` raises it when the run state is Halted: Halted has no step (R74, R127, I12, I18). Safe. -/
  | halted
  /-- `step` raises it when the run state is Faulted: Faulted has no step (R132, I18). Safe. -/
  | faulted
  deriving DecidableEq, Repr

/-- The run state of R23. -/
inductive RunState where
  | running
  /-- Reached by executing byte 0xFF (R74). -/
  | halted
  /-- Reached by a fault, with its record (R132). A step answers the record as its outcome; `Machine.systemStep` puts it here. -/
  | faulted (record : Fault)
  deriving DecidableEq, Repr

/-- The header fields of the cartridge (R8): parameters of the run, which no step changes (R35). Assumption log 1. -/
structure Header where
  entry : Word
  romBanks : Byte
  videoBanks : Byte
  targetFps : Byte
  name : Vector Byte 16
  deriving DecidableEq, Repr

/-- Everything the spec gives the CORE (10_state.md), and the host's pending input. -/
structure State where
  /-- The cartridge header (R8, R35). -/
  cart : Header
  /-- R0..R7 (R16). -/
  regs : Vector Byte 8
  /-- The program counter (R18). -/
  pc : Word
  /-- The stack pointer (R19). -/
  sp : Word
  /-- FLAGS: Z bit 0, C bit 1, N bit 2 (R20). -/
  flags : Byte
  /-- The run state (R23). -/
  run : RunState
  /-- The cartridge content, by content offset (R24). -/
  content : Memory
  /-- The I/O registers, by `addr & 0xFF` (R27). -/
  io : Memory
  /-- The RAM, by `addr - 0x8100` (R42). -/
  ram : Memory
  /-- The descriptor table, by `addr - 0xD100` (R44). -/
  desc : Memory
  /-- The stack array, by `addr - 0xD200` (R45). -/
  stack : Memory
  /-- The framebuffer, pixel (x, y) at x + y*128 (R26). -/
  fb : Memory
  /-- The model's own: the input snapshots the host has queued, oldest first (R125, R128). Assumption log 5. -/
  snapshots : List Byte
  /-- The model's own: how many refresh services have completed, which is how many frames were emitted (R124). Assumption
  log 5 and 6. -/
  refreshes : Nat
  deriving DecidableEq, Repr

/-- The state after reset with the cartridge `cart` loaded with the content `content0` (R36, R147). -/
def State.resetWith (cart : Header) (content0 : Memory) : State where
  cart := cart
  regs := Vector.replicate 8 0
  pc := cart.entry
  sp := 0xFFFF
  flags := 0
  run := .running
  content := content0
  io := []
  ram := []
  desc := []
  stack := []
  fb := []
  snapshots := []
  refreshes := 0

/-- The cartridge of the spec's test vectors (95_test_vectors.md, Conventions): one ROM bank, one video bank, entry 0x0000.
Assumption log 1. -/
def Header.ofVectors : Header where
  entry := 0
  romBanks := 1
  videoBanks := 1
  targetFps := 0
  name := Vector.replicate 16 0

/-- The machine right after reset, with the vectors' cartridge and a content that lists nothing. Assumption log 1. -/
def State.reset : State := State.resetWith Header.ofVectors []

end Sys2Proof.Machine
end

