-- ==== Sys2Proof/Machine/Ops.lean ====
section
/-! DEFINITION. The named operations over memory and registers (spec 20_memory.md, 40_execution_cycle.md), and raising a fault. -/

namespace Sys2Proof.Machine

/-- What a step of the CORE, or the effect of an instruction, ends in (R131). -/
abbrev Result := Host.Outcome State Fault Refusal

/-! ### The backing stores -/

/-- The cells from index `lo` on are in canonical form: indices strictly rising, no cell equal to what an unlisted index reads as. -/
def Memory.wfFrom (lo : Nat) : Memory → Bool
  | [] => true
  | (k, v) :: m => decide (lo ≤ k) && decide (v ≠ unlistedByte) && Memory.wfFrom (k + 1) m

/-- The canonical form of a store. -/
def Memory.wf (m : Memory) : Bool := Memory.wfFrom 0 m

/-- Every listed index lies below `n`: the store has `n` bytes. -/
def Memory.within (n : Nat) (m : Memory) : Bool := m.all fun c => decide (c.1 < n)

/-- The byte at an index. -/
def Memory.read (m : Memory) (k : Nat) : Byte :=
  match m with
  | [] => unlistedByte
  | (j, v) :: m => if k = j then v else Memory.read m k

/-- The store with one byte changed; the canonical form is kept. -/
def Memory.write (m : Memory) (k : Nat) (v : Byte) : Memory :=
  match m with
  | [] => if v = unlistedByte then [] else [(k, v)]
  | (j, w) :: m =>
    if k < j then
      if v = unlistedByte then (j, w) :: m else (k, v) :: (j, w) :: m
    else if k = j then
      if v = unlistedByte then m else (j, v) :: m
    else (j, w) :: Memory.write m k v

/-- The store whose bytes from index `k` on are the listed ones. -/
def Memory.writeAll (m : Memory) (k : Nat) : List Byte → Memory
  | [] => m
  | v :: vs => Memory.writeAll (Memory.write m k v) (k + 1) vs

/-- A pixel byte is a palette index, 0..7 (R26). -/
def Memory.palette (m : Memory) : Bool := m.all fun c => decide (c.2.toNat < 8)

/-! ### The address decode (R38) -/

/-- The content length `L = romBanks*16384 + videoBanks*12288` (R8). -/
def Header.contentLength (h : Header) : Nat := h.romBanks.toNat * 16384 + h.videoBanks.toNat * 12288

/-- The regions of R38, and the gap of R46, which holds no address. -/
inductive Region where
  | fixedBank | switchBank | io | ram | video | desc | stack | gap
  deriving DecidableEq, Repr

/-- The region of an address: the rows of R38 in order, the first match wins. -/
def regionOf (a : Word) : Region :=
  if a.toNat ≤ 0x3FFF then .fixedBank
  else if a.toNat ≤ 0x7FFF then .switchBank
  else if a.toNat ≤ 0x80FF then .io
  else if a.toNat ≤ 0xA0FF then .ram
  else if a.toNat ≤ 0xD0FF then .video
  else if a.toNat ≤ 0xD36A then .desc
  else if a.toNat ≤ 0xFFFF then .stack
  else .gap

/-- The content offset a video-window address names (R43). -/
def videoOffset (a : Word) : Nat := a.toNat - 0xA100 + 0x4000

/-- The byte of backing store an address names, the access checks aside: the store and the index in it (R38 to R45). -/
inductive Backing where
  | content (offset : Nat)
  | io (index : Nat)
  | ram (index : Nat)
  | desc (index : Nat)
  | stack (index : Nat)
  | none
  deriving DecidableEq, Repr

/-- The byte of backing store an address names. -/
def backingOf (a : Word) : Backing :=
  match regionOf a with
  | .fixedBank => .content (a.toNat % 0x4000)
  | .switchBank => .content a.toNat
  | .io => .io (a.toNat % 0x100)
  | .ram => .ram (a.toNat - 0x8100)
  | .video => .content (videoOffset a)
  | .desc => .desc (a.toNat - 0xD100)
  | .stack => .stack (a.toNat - 0xD200)
  | .gap => .none

/-- `ContentAt(k, a)` of R47. -/
def contentAt (s : State) (k : Nat) (a : Word) : Except FaultCause Byte :=
  if s.cart.contentLength ≤ k then .error (.contentOutOfRange a k) else .ok (s.content.read k)

/-- `ContentSet(k, a, v)` of R48. -/
def contentSet (s : State) (k : Nat) (a : Word) (v : Byte) : Except FaultCause State :=
  if s.cart.contentLength ≤ k then .error (.contentOutOfRange a k)
  else .ok { s with content := s.content.write k v }

/-- `MemRead(a, 1)` of R47. -/
def memRead (s : State) (a : Word) : Except FaultCause Byte :=
  match regionOf a with
  | .fixedBank => contentAt s (a.toNat % 0x4000) a
  | .switchBank => if s.cart.romBanks.toNat ≤ 1 then .error (.singleBankAccess a) else contentAt s a.toNat a
  | .io => .ok (s.io.read (a.toNat % 0x100))
  | .ram => .ok (s.ram.read (a.toNat - 0x8100))
  | .video => contentAt s (videoOffset a) a
  | .desc => .ok (s.desc.read (a.toNat - 0xD100))
  | .stack => .ok (s.stack.read (a.toNat - 0xD200))
  | .gap => .error (.unmappedAddress a)

/-- `MemWrite(a, 1, v)` of R48. -/
def memWrite (s : State) (a : Word) (v : Byte) : Except FaultCause State :=
  match regionOf a with
  | .fixedBank => contentSet s (a.toNat % 0x4000) a v
  | .switchBank => if s.cart.romBanks.toNat ≤ 1 then .error (.singleBankAccess a) else contentSet s a.toNat a v
  | .io => .ok { s with io := s.io.write (a.toNat % 0x100) v }
  | .ram => .ok { s with ram := s.ram.write (a.toNat - 0x8100) v }
  | .video => .error (.readOnlyWrite a)
  | .desc => .ok { s with desc := s.desc.write (a.toNat - 0xD100) v }
  | .stack => .ok { s with stack := s.stack.write (a.toNat - 0xD200) v }
  | .gap => .error (.unmappedAddress a)

/-! ### Registers -/

/-- `R[i]` (R11, R16). -/
def State.reg (s : State) (i : Fin 8) : Byte := s.regs[i]

/-- `R[i] <- v` (R11, R16). -/
def State.setReg (s : State) (i : Fin 8) (v : Byte) : State := { s with regs := s.regs.set i v }

/-- `CheckIndex(v)` of R89: the register an index value names. -/
def checkIndex (v : Word) : Except FaultCause (Fin 8) :=
  if h : v.toNat < 8 then .ok ⟨v.toNat, h⟩ else .error (.badRegisterIndex v)

/-- The pc after `n` operand bytes have been fetched (R18, R79). -/
def State.consume (s : State) (n : Nat) : State := { s with pc := s.pc + BitVec.ofNat 16 n }

/-- The trailing advance of R76. -/
def State.trailing (s : State) : State := { s with pc := s.pc + 1 }

/-! ### Raising a fault (R131 to R133) -/

/-- `raise <cause>` in an instruction at `s.pc` that has consumed `n` operand bytes: the machine stops with the record of R133.
There is no trap entry and no return (R138, R139). -/
def raise (s : State) (n : Nat) (c : FaultCause) : Result := .fault (.cpu c s.pc (s.pc + BitVec.ofNat 16 n))

/-- Goes on with the value of an access or a check made after `n` operand bytes, or raises its fault. -/
def attempt {α : Type} (s : State) (n : Nat) (r : Except FaultCause α) (k : α → Result) : Result :=
  match r with
  | .ok v => k v
  | .error c => raise s n c

/-- Ends an instruction at `s.pc` with `n` operand bytes in the state `t` its handler leaves, which has not moved the pc: the
operand bytes are consumed and the trailing advance follows (R72, R76). -/
def finish (n : Nat) (t : State) : Result := .next (t.consume n).trailing

end Sys2Proof.Machine
end

