-- ==== Sys2Proof/Machine/Flags.lean ====
section
/-! DEFINITION. The FLAGS register and every flag computation of the spec (R20, R21, 44_compare_alu.md). -/

namespace Sys2Proof.Machine

/-- A byte with bit `i` set or cleared and every other bit kept. -/
def putBit (f : Byte) (i : Nat) (b : Bool) : Byte :=
  if b then f ||| (1#8 <<< i) else f &&& ~~~(1#8 <<< i)

/-- Z, FLAGS[0] (R20). -/
def State.flagZ (s : State) : Bool := s.flags.getLsbD 0

/-- C, FLAGS[1] (R20). -/
def State.flagC (s : State) : Bool := s.flags.getLsbD 1

/-- N, FLAGS[2] (R20). -/
def State.flagN (s : State) : Bool := s.flags.getLsbD 2

/-- `Z <- b`. -/
def State.setZ (s : State) (b : Bool) : State := { s with flags := putBit s.flags 0 b }

/-- `C <- b`. -/
def State.setC (s : State) (b : Bool) : State := { s with flags := putBit s.flags 1 b }

/-- `N <- b`. -/
def State.setN (s : State) (b : Bool) : State := { s with flags := putBit s.flags 2 b }

/-- `SetZN(r)` of 44_compare_alu.md: Z from `r = 0`, N from bit 7 of `r`. -/
def State.setZN (s : State) (r : Byte) : State := (s.setZ (decide (r = 0))).setN (r.getLsbD 7)

/-- CMP's comparison, on all 16 bits of the operand (R104, D1). -/
def compareZ (r0 : Byte) (v : Word) : Bool := decide (r0.zext16 = v)

/-- ADD's carry, from R0 before the add (R105). -/
def addCarry (r0 : Byte) : Bool := decide (r0 = 0)

end Sys2Proof.Machine
end

