-- ==== Sys2Proof/Machine/Operands.lean ====
section
/-! DEFINITION. Operand resolution: `fetch_operand(mode)` of R80, every mode. The operand bytes are in the operand; they were
read when the instruction was fetched (assumption log 10). -/

namespace Sys2Proof.Machine

/-- The value of a check or a data read that is made after `n` operand bytes of the instruction at `s.pc`. -/
def afterBytes {α : Type} (s : State) (n : Nat) (r : Except FaultCause α) : Except Fault α :=
  match r with
  | .ok v => .ok v
  | .error c => .error (.cpu c s.pc (s.pc + BitVec.ofNat 16 n))

/-- A data read after `n` operand bytes, widened (modes 1 and 4, R82, R85). -/
def readOperand (s : State) (n : Nat) (a : Word) : Except Fault Word :=
  match afterBytes s n (memRead s a) with
  | .ok v => .ok v.zext16
  | .error f => .error f

/-- Mode 2: the index byte is checked right after it is read (R83, R89). -/
def regOperand (s : State) (i : Byte) : Except Fault Word :=
  match afterBytes s 1 (checkIndex i.zext16) with
  | .ok i => .ok (s.reg i).zext16
  | .error f => .error f

/-- Mode 5: each index byte is checked right after it is read, the high register's first (R86, R89). -/
def pairOperand (s : State) (hi lo : Byte) : Except Fault Word :=
  match afterBytes s 1 (checkIndex hi.zext16) with
  | .error f => .error f
  | .ok h =>
    match afterBytes s 2 (checkIndex lo.zext16) with
    | .error f => .error f
    | .ok l => .ok ((s.reg h).pairWith (s.reg l))

/-- `fetch_operand(mode)` of R80 for an instruction at `s.pc`: the u16 operand value (R81 to R88). -/
def resolve (s : State) (o : Operand) : Except Fault Word :=
  match o with
  | .imm8 v => .ok v.zext16
  | .mem8 a => readOperand s 1 a.zext16
  | .reg i => regOperand s i
  | .imm16 v => .ok v
  | .mem16 a => readOperand s 2 a
  | .pair hi lo => pairOperand s hi lo
  | .carry => .ok (if s.flagC then 1 else 0)
  | .pc => .ok s.pc

/-- Goes on with the operand's value, or ends in the fault its resolution raises. -/
def withOperand (s : State) (o : Operand) (k : Word → Result) : Result :=
  match resolve s o with
  | .ok v => k v
  | .error f => .fault f

end Sys2Proof.Machine
end

