-- ==== Sys2Proof/Machine/Alu.lean ====
section
/-! DEFINITION. CMP, ADD, AND, OR, NOT, SHR and SHL (spec 44_compare_alu.md). -/

namespace Sys2Proof.Machine

/-- `R[0] <- r; SetZN(r)`, the end of every rule from R105 to R110. -/
def State.setResult (s : State) (r : Byte) : State := (s.setReg 0 r).setZN r

/-- A shift right by a 16-bit count; counts of 8 and more give 0 (R109). -/
def shiftRight (r : Byte) (n : Word) : Byte := if 8 ≤ n.toNat then 0 else r >>> n.toNat

/-- A shift left by a 16-bit count; counts of 8 and more give 0 (R110). -/
def shiftLeft (r : Byte) (n : Word) : Byte := if 8 ≤ n.toNat then 0 else r <<< n.toNat

/-- CMP (R104): `Z <- (zext16(R[0]) == operand)`. -/
def execCmp (o : Operand) (s : State) : Result :=
  withOperand s o fun v => finish o.bytes (s.setZ (compareZ (s.reg 0) v))

/-- ADD (R105): `C <- (R[0] == 0)` before the add, then `R[0] <- (R[0] + operand) & 0xFF` with Z and N. -/
def execAdd (o : Operand) (s : State) : Result :=
  withOperand s o fun v =>
    finish o.bytes ((s.setC (addCarry (s.reg 0))).setResult (Word.low8 ((s.reg 0).zext16 + v)))

/-- AND (R106). -/
def execAnd (o : Operand) (s : State) : Result :=
  withOperand s o fun v => finish o.bytes (s.setResult (Word.low8 ((s.reg 0).zext16 &&& v)))

/-- OR (R107). -/
def execOr (o : Operand) (s : State) : Result :=
  withOperand s o fun v => finish o.bytes (s.setResult (Word.low8 ((s.reg 0).zext16 ||| v)))

/-- NOT (R108): the mode is ignored and no operand byte is read. -/
def execNot (_m : Mode) (s : State) : Result := finish 0 (s.setResult (~~~(s.reg 0)))

/-- SHR (R109). -/
def execShr (o : Operand) (s : State) : Result :=
  withOperand s o fun n => finish o.bytes (s.setResult (shiftRight (s.reg 0) n))

/-- SHL (R110). -/
def execShl (o : Operand) (s : State) : Result :=
  withOperand s o fun n => finish o.bytes (s.setResult (shiftLeft (s.reg 0) n))

end Sys2Proof.Machine
end

