-- ==== Sys2Proof/Machine/Jump.lean ====
section
/-! DEFINITION. JMP, JZ, JNZ and JMP with an illegal condition (spec 42_jump.md). The target byte is the one operand byte. -/

namespace Sys2Proof.Machine

/-- The common part of R95: a taken jump sets the pc to the target minus one, and the trailing advance follows either way. -/
def jumpIf (taken : Bool) (t : Byte) (s : State) : Result :=
  if taken then .next (State.trailing { s with pc := t.zext16 - 1 }) else finish 1 s

/-- R99: the target byte is fetched, then the condition is refused; the detail is the instruction byte. -/
def jumpUnknown (m : Mode) (s : State) : Result := raise s 1 (.unknownJumpCondition (headByte m.bits 4))

/-- JMP (R96). -/
def execJmp (t : Byte) (s : State) : Result := jumpIf true t s

/-- JZ (R97). -/
def execJz (t : Byte) (s : State) : Result := jumpIf s.flagZ t s

/-- JNZ (R98). -/
def execJnz (t : Byte) (s : State) : Result := jumpIf (!s.flagZ) t s

/-- JMP.m3 (R99). -/
def execJmpM3 (_t : Byte) (s : State) : Result := jumpUnknown .imm16 s

/-- JMP.m4 (R99). -/
def execJmpM4 (_t : Byte) (s : State) : Result := jumpUnknown .mem16 s

/-- JMP.m5 (R99). -/
def execJmpM5 (_t : Byte) (s : State) : Result := jumpUnknown .pair s

/-- JMP.m6 (R99). -/
def execJmpM6 (_t : Byte) (s : State) : Result := jumpUnknown .carry s

/-- JMP.m7 (R99). -/
def execJmpM7 (_t : Byte) (s : State) : Result := jumpUnknown .pc s

end Sys2Proof.Machine
end

