-- ==== Sys2Proof/Machine/Move.lean ====
section
/-! DEFINITION. NOOP, LDA, SAM and SAR (spec 41_load_store.md). -/

namespace Sys2Proof.Machine

/-- NOOP (R91): no effect; the mode is ignored and no operand byte is read. -/
def execNoop (_m : Mode) (s : State) : Result := finish 0 s

/-- LDA (R92): `R[0] <- low8(operand)`. -/
def execLda (o : Operand) (s : State) : Result :=
  withOperand s o fun v => finish o.bytes (s.setReg 0 v.low8)

/-- SAM (R93): `MemWrite(operand, 1, R[0])`. -/
def execSam (o : Operand) (s : State) : Result :=
  withOperand s o fun a => attempt s o.bytes (memWrite s a (s.reg 0)) fun t => finish o.bytes t

/-- SAR (R94): `R[operand] <- R[0]`, the index checked. -/
def execSar (o : Operand) (s : State) : Result :=
  withOperand s o fun v => attempt s o.bytes (checkIndex v) fun i => finish o.bytes (s.setReg i (s.reg 0))

end Sys2Proof.Machine
end

