-- ==== Sys2Proof/Machine/Stack.lean ====
section
/-! DEFINITION. PSH, POP and POP.pc (spec 43_stack.md). -/

namespace Sys2Proof.Machine

/-- `sp <- sp -16 1` (R19, D3). -/
def State.spDown (s : State) : State := { s with sp := s.sp - 1 }

/-- `sp <- sp +16 1` (R19, D3). -/
def State.spUp (s : State) : State := { s with sp := s.sp + 1 }

/-- PSH (R100): `MemWrite(sp, 1, low8(operand))`, then `sp <- sp - 1`. -/
def execPsh (o : Operand) (s : State) : Result :=
  withOperand s o fun v => attempt s o.bytes (memWrite s s.sp v.low8) fun t => finish o.bytes t.spDown

/-- POP, modes 0..6 (R101): `sp <- sp + 1`, the operand is the destination's index, then `R[i] <- MemRead(sp, 1)`. -/
def execPop (o : Operand) (s : State) : Result :=
  withOperand s.spUp o fun v =>
    attempt s.spUp o.bytes (checkIndex v) fun i =>
      attempt s.spUp o.bytes (memRead s.spUp s.spUp.sp) fun b => finish o.bytes (s.spUp.setReg i b)

/-- POP.pc (R102): `sp <- sp + 1`, `pc <- zext16(MemRead(sp, 1))`, then the trailing advance. -/
def execPopPc (s : State) : Result :=
  attempt s.spUp 0 (memRead s.spUp s.spUp.sp) fun b => .next (State.trailing { s.spUp with pc := b.zext16 })

end Sys2Proof.Machine
end

