-- ==== Sys2Proof/Machine/System.lean ====
section
/-! DEFINITION. HALT (spec R74) and the illegal opcodes 14 to 31 (R75). -/

namespace Sys2Proof.Machine

/-- HALT (R74): the run state becomes Halted; the pc keeps the address of the byte and nothing else is written. -/
def execHalt (s : State) : Result := .next { s with run := .halted }

/-- R75: an opcode outside 0..13 raises UnknownOpcode with the instruction byte, before any operand byte is read. -/
def unknownOpcode (op : BitVec 5) (m : Mode) (s : State) : Result := raise s 0 (.unknownOpcode (headByte m.bits op))

/-- UNKNOWN.14 (R75). -/
def execUnknown14 (m : Mode) (s : State) : Result := unknownOpcode 14 m s

/-- UNKNOWN.15 (R75). -/
def execUnknown15 (m : Mode) (s : State) : Result := unknownOpcode 15 m s

/-- UNKNOWN.16 (R75). -/
def execUnknown16 (m : Mode) (s : State) : Result := unknownOpcode 16 m s

/-- UNKNOWN.17 (R75). -/
def execUnknown17 (m : Mode) (s : State) : Result := unknownOpcode 17 m s

/-- UNKNOWN.18 (R75). -/
def execUnknown18 (m : Mode) (s : State) : Result := unknownOpcode 18 m s

/-- UNKNOWN.19 (R75). -/
def execUnknown19 (m : Mode) (s : State) : Result := unknownOpcode 19 m s

/-- UNKNOWN.20 (R75). -/
def execUnknown20 (m : Mode) (s : State) : Result := unknownOpcode 20 m s

/-- UNKNOWN.21 (R75). -/
def execUnknown21 (m : Mode) (s : State) : Result := unknownOpcode 21 m s

/-- UNKNOWN.22 (R75). -/
def execUnknown22 (m : Mode) (s : State) : Result := unknownOpcode 22 m s

/-- UNKNOWN.23 (R75). -/
def execUnknown23 (m : Mode) (s : State) : Result := unknownOpcode 23 m s

/-- UNKNOWN.24 (R75). -/
def execUnknown24 (m : Mode) (s : State) : Result := unknownOpcode 24 m s

/-- UNKNOWN.25 (R75). -/
def execUnknown25 (m : Mode) (s : State) : Result := unknownOpcode 25 m s

/-- UNKNOWN.26 (R75). -/
def execUnknown26 (m : Mode) (s : State) : Result := unknownOpcode 26 m s

/-- UNKNOWN.27 (R75). -/
def execUnknown27 (m : Mode) (s : State) : Result := unknownOpcode 27 m s

/-- UNKNOWN.28 (R75). -/
def execUnknown28 (m : Mode) (s : State) : Result := unknownOpcode 28 m s

/-- UNKNOWN.29 (R75). -/
def execUnknown29 (m : Mode) (s : State) : Result := unknownOpcode 29 m s

/-- UNKNOWN.30 (R75). -/
def execUnknown30 (m : Mode) (s : State) : Result := unknownOpcode 30 m s

/-- UNKNOWN.31 (R75). -/
def execUnknown31 (m : Mode) (s : State) : Result := unknownOpcode 31 m s

end Sys2Proof.Machine
end

