-- ==== Sys2Proof/Machine/Dispatch.lean ====
section
/-! DEFINITION. The dispatch: `Execute(op, mode)` of R73, one arm per constructor of `Instr`. -/

namespace Sys2Proof.Machine

def exec (i : Instr) (s : State) : Host.Outcome State Fault Refusal :=
  match i with
  | .halt => Sys2Proof.Machine.execHalt s
  | .noop m => Sys2Proof.Machine.execNoop m s
  | .lda o => Sys2Proof.Machine.execLda o s
  | .sam o => Sys2Proof.Machine.execSam o s
  | .sar o => Sys2Proof.Machine.execSar o s
  | .jmp t => Sys2Proof.Machine.execJmp t s
  | .jz t => Sys2Proof.Machine.execJz t s
  | .jnz t => Sys2Proof.Machine.execJnz t s
  | .jmpM3 t => Sys2Proof.Machine.execJmpM3 t s
  | .jmpM4 t => Sys2Proof.Machine.execJmpM4 t s
  | .jmpM5 t => Sys2Proof.Machine.execJmpM5 t s
  | .jmpM6 t => Sys2Proof.Machine.execJmpM6 t s
  | .jmpM7 t => Sys2Proof.Machine.execJmpM7 t s
  | .psh o => Sys2Proof.Machine.execPsh o s
  | .popPc => Sys2Proof.Machine.execPopPc s
  | .pop o => Sys2Proof.Machine.execPop o s
  | .cmp o => Sys2Proof.Machine.execCmp o s
  | .add o => Sys2Proof.Machine.execAdd o s
  | .and o => Sys2Proof.Machine.execAnd o s
  | .or o => Sys2Proof.Machine.execOr o s
  | .not m => Sys2Proof.Machine.execNot m s
  | .shr o => Sys2Proof.Machine.execShr o s
  | .shl o => Sys2Proof.Machine.execShl o s
  | .unknown14 m => Sys2Proof.Machine.execUnknown14 m s
  | .unknown15 m => Sys2Proof.Machine.execUnknown15 m s
  | .unknown16 m => Sys2Proof.Machine.execUnknown16 m s
  | .unknown17 m => Sys2Proof.Machine.execUnknown17 m s
  | .unknown18 m => Sys2Proof.Machine.execUnknown18 m s
  | .unknown19 m => Sys2Proof.Machine.execUnknown19 m s
  | .unknown20 m => Sys2Proof.Machine.execUnknown20 m s
  | .unknown21 m => Sys2Proof.Machine.execUnknown21 m s
  | .unknown22 m => Sys2Proof.Machine.execUnknown22 m s
  | .unknown23 m => Sys2Proof.Machine.execUnknown23 m s
  | .unknown24 m => Sys2Proof.Machine.execUnknown24 m s
  | .unknown25 m => Sys2Proof.Machine.execUnknown25 m s
  | .unknown26 m => Sys2Proof.Machine.execUnknown26 m s
  | .unknown27 m => Sys2Proof.Machine.execUnknown27 m s
  | .unknown28 m => Sys2Proof.Machine.execUnknown28 m s
  | .unknown29 m => Sys2Proof.Machine.execUnknown29 m s
  | .unknown30 m => Sys2Proof.Machine.execUnknown30 m s
  | .unknown31 m => Sys2Proof.Machine.execUnknown31 m s

end Sys2Proof.Machine
end

