-- ==== Sys2Proof/Machine/Fetch.lean ====
section
/-! DEFINITION. Fetching the instruction at the pc (spec R72, R79), and placing one there. -/

namespace Sys2Proof.Machine

/-- The byte of the instruction stream at pc0 + n, with the fault record of R133. -/
def fetchByte (s : State) (n : Nat) : Except Fault Byte :=
  match memRead s (s.pc + BitVec.ofNat 16 n) with
  | .ok b => .ok b
  | .error c => .error (.cpu c s.pc (s.pc + BitVec.ofNat 16 n))

/-- The second operand byte of an instruction whose first two bytes are `b` and `x`. In operand mode 5 the first index is
checked before this byte is fetched (R80, R136). -/
def fetchSecond (s : State) (b x : Byte) : Except Fault Byte :=
  if headTakesPair b && decide (8 ≤ x.toNat) then .error (.cpu (.badRegisterIndex x.zext16) s.pc (s.pc + 1))
  else fetchByte s 2

/-- The instruction at the pc: its byte, then as many operand bytes as R66 gives, in address order, each through the address
decode (R79, R136). Assumption log 10. -/
def fetch (s : State) : Except Fault Instr :=
  match fetchByte s 0 with
  | .error f => .error f
  | .ok b =>
    match operandBytes b with
    | 0 => .ok (instrOf b 0 0)
    | 1 =>
      match fetchByte s 1 with
      | .error f => .error f
      | .ok x => .ok (instrOf b x 0)
    | _ =>
      match fetchByte s 1 with
      | .error f => .error f
      | .ok x =>
        match fetchSecond s b x with
        | .error f => .error f
        | .ok y => .ok (instrOf b x y)

/-- The state with a cartridge of two ROM banks unless `reached` says that the cartridge reaches the byte to be placed. -/
def State.reaching (s : State) (reached : Bool) : State :=
  if reached then s else { s with cart := { s.cart with romBanks := 2 } }

/-- The state with the byte an address names set, whatever the Cpu may write there; the cartridge is made to reach the
address if it does not. It stands for loading a cartridge (assumption log 1). -/
def State.placeByte (s : State) (a : Word) (v : Byte) : State :=
  match backingOf a with
  | .content k =>
    let t := s.reaching
      (decide (k < s.cart.contentLength) && (decide (regionOf a ≠ .switchBank) || decide (1 < s.cart.romBanks.toNat)))
    { t with content := t.content.write k v }
  | .io k => { s with io := s.io.write k v }
  | .ram k => { s with ram := s.ram.write k v }
  | .desc k => { s with desc := s.desc.write k v }
  | .stack k => { s with stack := s.stack.write k v }
  | .none => s

/-- The state with the listed bytes placed from an address on. -/
def State.placeBytes (s : State) (a : Word) : List Byte → State
  | [] => s
  | v :: vs => (s.placeByte a v).placeBytes (a + 1) vs

end Sys2Proof.Machine
end

