-- ==== Sys2Proof/Machine/Render.lean ====
section
/-! DEFINITION. The TileRenderer (spec 47_tile_renderer.md). -/

namespace Sys2Proof.Machine

/-- Byte `j` of tile `t`: the content byte a Cpu read of address 0xA100 + 24t + j returns (R114). -/
def tileByteAt (s : State) (t : Byte) (j : Nat) : Except FaultCause Byte :=
  contentAt s (0x4000 + t.toNat * 24 + j) (BitVec.ofNat 16 (0xA100 + t.toNat * 24 + j))

/-- The tile bytes of the listed numbers, read in order; the first that lies outside the content is the fault (R114). -/
def tileBytesAt (s : State) (t : Byte) : List Nat → Except FaultCause (List Byte)
  | [] => .ok []
  | j :: js =>
    match tileByteAt s t j with
    | .error c => .error c
    | .ok b =>
      match tileBytesAt s t js with
      | .error c => .error c
      | .ok bs => .ok (b :: bs)

/-- The 24 bytes of tile `t` (R114, R119). -/
def tileAt (s : State) (t : Byte) : Except FaultCause (List Byte) := tileBytesAt s t (List.range 24)

/-- The palette index of pixel `i` of a tile (R115): three bits of a 16-bit window whose low half is the first byte. -/
def pixelOf (tile : List Byte) (i : Nat) : Byte :=
  let bit := i * 3
  let k := bit / 8
  let lo := tile.getD k 0
  let hi := if k + 1 ≤ 23 then tile.getD (k + 1) 0 else 0
  let window : Word := lo.zext16 ||| (hi.zext16 <<< 8)
  Word.low8 ((window >>> (bit % 8)) &&& 7)

/-- The framebuffer index of the exact coordinates (fx, fy), where they lie in the framebuffer (R117, R118). -/
def fbIndex (fx fy : Int) : Option Nat :=
  if 0 ≤ fx ∧ fx < 128 ∧ 0 ≤ fy ∧ fy < 64 then some (fx.toNat + fy.toNat * 128) else none

/-- Where pixel `i` of a tile in the cell (cx, cy) lands under the scroll (sx, sy), in exact integers (R117, D20). -/
def pixelIndex (sx sy cx cy : Byte) (i : Nat) : Option Nat :=
  fbIndex ((cx.toNat * 8 + i % 8 : Nat) - (sx.toNat : Int)) ((cy.toNat * 8 + i / 8 : Nat) - (sy.toNat : Int))

/-- The listed pixels of a tile drawn in order into a framebuffer (R118, R119). -/
def drawPixels (sx sy cx cy : Byte) (tile : List Byte) : List Nat → Memory → Memory
  | [], fb => fb
  | i :: is, fb =>
    match pixelIndex sx sy cx cy i with
    | none => drawPixels sx sy cx cy tile is fb
    | some p => drawPixels sx sy cx cy tile is (fb.write p (pixelOf tile i))

/-- Entry `k` of the descriptor table drawn into a framebuffer (R113, R119). -/
def drawEntry (s : State) (k : Nat) (fb : Memory) : Except FaultCause Memory :=
  match tileAt s (s.desc.read (3 * k)) with
  | .error c => .error c
  | .ok tile =>
    .ok (drawPixels (s.io.read 0x01) (s.io.read 0x02) (s.desc.read (3 * k + 1)) (s.desc.read (3 * k + 2)) tile
      (List.range 64) fb)

/-- The listed entries drawn in order. -/
def drawEntries (s : State) : List Nat → Memory → Except FaultCause Memory
  | [], fb => .ok fb
  | k :: ks, fb =>
    match drawEntry s k fb with
    | .error c => .error c
    | .ok fb => drawEntries s ks fb

/-- `Render()` of R119: the 153 entries in ascending order, drawn into the framebuffer `fb`. -/
def render (s : State) (fb : Memory) : Except FaultCause Memory := drawEntries s (List.range 153) fb

end Sys2Proof.Machine
end

