-- ==== Sys2Proof/Machine/Refresh.lean ====
section
/-! DEFINITION. The refresh check and service of the outer loop (spec R123 to R126). -/

namespace Sys2Proof.Machine

/-- The input snapshot of the next refresh: the oldest the host has queued, or a free value where none is queued (R125, I6).
Assumption log 5. -/
def nextSnapshot (s : State) : Byte :=
  match s.snapshots with
  | [] => Config.freeSnapshot s.refreshes
  | b :: _ => b

/-- The first two lines of `RefreshService` (R124): the trigger and the framebuffer are cleared. -/
def beginRefresh (s : State) : State := { s with io := s.io.write 0x00 0, fb := [] }

/-- The last two lines of `RefreshService` (R124): the snapshot is injected and the frame `fb` is emitted. -/
def endRefresh (s : State) (fb : Memory) : State :=
  { s with
    io := s.io.write 0x05 (nextSnapshot s)
    fb := fb
    snapshots := s.snapshots.tail
    refreshes := s.refreshes + 1 }

/-- `RefreshService(snapshot)` (R124). A fault of the render has phase `render`, and both its pcs are the pc after the step
that requested the refresh (R126, R133). -/
def refreshService (s : State) : Result :=
  match render (beginRefresh s) (beginRefresh s).fb with
  | .ok fb => .next (endRefresh (beginRefresh s) fb)
  | .error c => .fault (.render c s.pc s.pc)

/-- `RefreshCheck(snapshot)` (R123): the service runs when io[0x00] is exactly 1 (D18). -/
def refreshCheck (s : State) : Result :=
  if s.io.read 0x00 = 1 then refreshService s else .next s

/-- What the outer loop does after a Cpu step: the refresh check, unless the step faulted (R122). -/
def afterCpuStep (r : Result) : Result :=
  match r with
  | .next s => refreshCheck s
  | .fault f => .fault f
  | .refused x => .refused x

end Sys2Proof.Machine
end

