-- ==== Sys2Proof/Machine/Step.lean ====
section
/-! DEFINITION. One system step (spec R72, R122). -/

namespace Sys2Proof.Machine

/-- `CpuStep()` of R72: fetch, decode and execute the instruction at the pc. -/
def cpuStep (s : State) : Result :=
  match fetch s with
  | .ok i => exec i s
  | .error f => .fault f

/-- `SystemStep` of R122: one Cpu step, then the refresh check. Only Running has a step (R23). -/
def step (s : State) : Host.Outcome State Fault Refusal :=
  match s.run with
  | .running => afterCpuStep (cpuStep s)
  | .halted => .refused .halted
  | .faulted _ => .refused .faulted

/-- The state with the instruction of the bits `w` (numbered as the opcode table numbers them) at the pc, and running. -/
def State.withFetchWord (s : State) (nbits w : Nat) : State :=
  State.placeBytes { s with run := .running } s.pc (tableBytes nbits w)

end Sys2Proof.Machine
end

