-- ==== Sys2Proof/Machine/Interface.lean ====
section
/-! DEFINITION. The host's transactions with the CORE (spec R128): load, step(snapshot), frame, status, ack. `terminate` is a
run that is not stepped further. No instruction uses this file. -/

namespace Sys2Proof.Machine

/-- `load(header, content0)` (R128, R147): reset with the cartridge loaded. A content that is not L bytes long is a load error,
code 9, and no state exists (R134). Assumption log 24. -/
def load (h : Header) (content0 : List Byte) : Except Fault State :=
  if content0.length = h.contentLength then .ok (State.resetWith h (Memory.writeAll [] 0 content0)) else .error .load

/-- `step(snapshot)` (R128): one system step with the host's byte, used only if the step refreshes. A fault is recorded in the
run state (R23, R126); the rest of a faulted state is not specified, and the model drops the step's writes (R78). A CORE that is
not Running has no step (I18). -/
def systemStep (snapshot : Byte) (s : State) : Except Refusal State :=
  match step { s with snapshots := [snapshot] } with
  | .next t => .ok { t with snapshots := [] }
  | .fault f => .ok { s with run := .faulted f }
  | .refused r => .error r

/-- `frame(fb)` (R128): the framebuffer a system step from `s` to `t` emits, if it refreshed. -/
def emittedFrame (s t : State) : Option Memory := if t.refreshes = s.refreshes then none else some t.fb

/-- `status` (R128). -/
def status (s : State) : RunState := s.run

/-- `ack` (R127, R128): taken when Halted, and changes nothing. -/
def ack (s : State) : Option State :=
  match s.run with
  | .running => none
  | .halted => some s
  | .faulted _ => none

/-- The code of a fault (R134). -/
def FaultCause.code : FaultCause → Nat
  | .unknownOpcode _ => 1
  | .unknownMode _ => 2
  | .unknownJumpCondition _ => 3
  | .badRegisterIndex _ => 4
  | .readOnlyWrite _ => 5
  | .singleBankAccess _ => 6
  | .unmappedAddress _ => 7
  | .contentOutOfRange _ _ => 8

/-- The code of a fault record (R133, R134). -/
def Fault.code : Fault → Nat
  | .cpu c _ _ => c.code
  | .render c _ _ => c.code
  | .load => 9

/-- The buttons of the input snapshot (R31). -/
inductive Button where
  | a | b | up | right | down | left | select | start
  deriving DecidableEq, Repr

/-- The bit of the snapshot a button sets: Select and Start share bit 7; bit 6 has no meaning (R31, D23). -/
def Button.bit : Button → Nat
  | .a => 0
  | .b => 1
  | .up => 2
  | .right => 3
  | .down => 4
  | .left => 5
  | .select => 7
  | .start => 7

/-- The snapshot byte of the buttons held (R31): "both source bits OR into bit7". Bit 6 has no meaning, so the host's choice of it
is an argument (D23; 91_not_in_source.md N14). Assumption log 5. -/
def snapshotOf (bit6 : Bool) : List Button → Byte
  | [] => if bit6 then 0x40 else 0
  | k :: ks => (1#8 <<< k.bit) ||| snapshotOf bit6 ks

end Sys2Proof.Machine
end

