-- ==== Sys2Proof/Safety.lean ====
section
/-! DEFINITION. The terms claims are stated in: which accesses and operands go through, which instructions stop, the invariant
of a run, what two states share, and what a frame must show. -/

namespace Sys2Proof

/-! ### Instructions by what they do -/

/-- The fault code an instruction ends in whatever the state: 1 for an illegal opcode (R75), 3 for an illegal condition (R99). -/
def Instr.stopCode : Instr → Option Nat
  | .halt => none
  | .noop _ => none
  | .lda _ => none
  | .sam _ => none
  | .sar _ => none
  | .jmp _ => none
  | .jz _ => none
  | .jnz _ => none
  | .jmpM3 _ => some 3
  | .jmpM4 _ => some 3
  | .jmpM5 _ => some 3
  | .jmpM6 _ => some 3
  | .jmpM7 _ => some 3
  | .psh _ => none
  | .popPc => none
  | .pop _ => none
  | .cmp _ => none
  | .add _ => none
  | .and _ => none
  | .or _ => none
  | .not _ => none
  | .shr _ => none
  | .shl _ => none
  | .unknown14 _ => some 1
  | .unknown15 _ => some 1
  | .unknown16 _ => some 1
  | .unknown17 _ => some 1
  | .unknown18 _ => some 1
  | .unknown19 _ => some 1
  | .unknown20 _ => some 1
  | .unknown21 _ => some 1
  | .unknown22 _ => some 1
  | .unknown23 _ => some 1
  | .unknown24 _ => some 1
  | .unknown25 _ => some 1
  | .unknown26 _ => some 1
  | .unknown27 _ => some 1
  | .unknown28 _ => some 1
  | .unknown29 _ => some 1
  | .unknown30 _ => some 1
  | .unknown31 _ => some 1

/-- `Length(b)` of R66, transcribed. -/
def specLength (b : Byte) : Option Nat :=
  if b = 0xFF then some 1
  else if 13 < b.toNat % 32 then none
  else if b.toNat % 32 = 0 ∨ b.toNat % 32 = 11 then some 1
  else if b.toNat % 32 = 4 then some 2
  else if b.toNat % 32 = 6 ∧ b.toNat / 32 = 7 then some 1
  else some (1 + [1, 1, 1, 2, 2, 2, 0, 0].getD (b.toNat / 32) 0)

end Sys2Proof

namespace Sys2Proof.Machine

/-! ### Accesses and operands that go through -/

/-- A read of `a` goes through: the content is long enough, and the switchable bank exists (R38, R39, R40, R43). -/
abbrev Readable (s : State) (a : Word) : Prop :=
  (a.toNat ≤ 0x3FFF → a.toNat < s.cart.contentLength) ∧
  (0x4000 ≤ a.toNat → a.toNat ≤ 0x7FFF → 2 ≤ s.cart.romBanks.toNat) ∧
  (0xA100 ≤ a.toNat → a.toNat ≤ 0xD0FF → a.toNat - 0xA100 + 0x4000 < s.cart.contentLength)

/-- A write of `a` goes through: the writable addresses of R49. -/
abbrev Writable (s : State) (a : Word) : Prop :=
  (a.toNat ≤ 0x3FFF → a.toNat < s.cart.contentLength) ∧
  (0x4000 ≤ a.toNat → a.toNat ≤ 0x7FFF → 2 ≤ s.cart.romBanks.toNat) ∧
  ¬ (0xA100 ≤ a.toNat ∧ a.toNat ≤ 0xD0FF)

/-- An operand resolves without a fault: its data address is readable, its register indices are below 8 (R80 to R89). -/
def OperandReady (s : State) (o : Operand) : Bool :=
  match o with
  | .imm8 _ => true
  | .mem8 a => decide (Readable s a.zext16)
  | .reg i => decide (i.toNat < 8)
  | .imm16 _ => true
  | .mem16 a => decide (Readable s a)
  | .pair hi lo => decide (hi.toNat < 8) && decide (lo.toNat < 8)
  | .carry => true
  | .pc => true

/-! ### Frames -/

/-- Every address reads as before. -/
def MemorySame (s t : State) : Prop := ∀ b, memRead t b = memRead s b

/-- Every address that does not name the byte `a` names reads as before. Two addresses name one byte only in the case of R50. -/
def MemorySameBut (s t : State) (a : Word) : Prop := ∀ b, backingOf b ≠ backingOf a → memRead t b = memRead s b

/-- What no instruction writes: the header, the framebuffer, and the model's own input queue and counter. -/
def OutsideSame (s t : State) : Prop :=
  t.cart = s.cart ∧ t.fb = s.fb ∧ t.snapshots = s.snapshots ∧ t.refreshes = s.refreshes

/-! ### The invariant of a run -/

/-- Every store is in canonical form and within its size (R24), the stack array holds nothing below index 0x16B (R25), the
framebuffer holds palette indices (R26, R120), FLAGS bits 3..7 are 0 (R20, R36), and no refresh is pending between steps
(R28, R148). -/
def State.inv (s : State) : Bool :=
  s.content.wf && s.content.within s.cart.contentLength &&
  s.io.wf && s.io.within 256 &&
  s.ram.wf && s.ram.within 8192 &&
  s.desc.wf && s.desc.within 619 &&
  Memory.wfFrom 0x16B s.stack && s.stack.within 11776 &&
  s.fb.wf && s.fb.within 8192 && s.fb.palette &&
  decide (s.flags.toNat < 8) && decide (s.io.read 0x00 ≠ 1)

/-! ### What a program can observe -/

/-- The state with everything no program can observe set to a fixed value: the framebuffer (R26), N and FLAGS bits 3..7 (R22,
R34), and the header fields no rule reads after reset (R35). -/
def hide (s : State) : State :=
  { s with
    fb := []
    flags := s.flags &&& 3
    cart := { s.cart with entry := 0, targetFps := 0, name := Vector.replicate 16 0 } }

/-- A step's outcome, up to what no program can observe. -/
def seen (r : Result) : Result :=
  match r with
  | .next s => .next (hide s)
  | .fault f => .fault f
  | .refused x => .refused x

/-! ### The picture, pixel by pixel -/

/-- Descriptor entry `k` covers the framebuffer pixel (x, y) under the scroll (R117, R121). -/
def covers (s : State) (x y k : Nat) : Bool :=
  decide ((s.desc.read (3 * k + 1)).toNat * 8 ≤ x + (s.io.read 1).toNat) &&
  decide (x + (s.io.read 1).toNat < (s.desc.read (3 * k + 1)).toNat * 8 + 8) &&
  decide ((s.desc.read (3 * k + 2)).toNat * 8 ≤ y + (s.io.read 2).toNat) &&
  decide (y + (s.io.read 2).toNat < (s.desc.read (3 * k + 2)).toNat * 8 + 8)

/-- Row `y` of tile `t`, the 24-bit word `W_y` of R116, from the content (R114). -/
def tileRow (s : State) (t : Byte) (y : Nat) : Nat :=
  (s.content.read (0x4000 + t.toNat * 24 + 3 * y)).toNat +
  (s.content.read (0x4000 + t.toNat * 24 + 3 * y + 1)).toNat * 256 +
  (s.content.read (0x4000 + t.toNat * 24 + 3 * y + 2)).toNat * 65536

/-- The palette index entry `k` gives the pixel (x, y) it covers: `(W_y >> 3x) & 7` at the pixel's place in the tile (R116). -/
def entryPixel (s : State) (x y k : Nat) : Nat :=
  tileRow s (s.desc.read (3 * k)) (y + (s.io.read 2).toNat - (s.desc.read (3 * k + 2)).toNat * 8)
    / 2 ^ (3 * (x + (s.io.read 1).toNat - (s.desc.read (3 * k + 1)).toNat * 8)) % 8

/-- The palette index of the pixel (x, y): that of the last entry that covers it, or 0 (R118). -/
def composite (s : State) (x y : Nat) : Nat :=
  match ((List.range 153).filter (covers s x y)).getLast? with
  | none => 0
  | some k => entryPixel s x y k

end Sys2Proof.Machine
end

