-- ==== Sys2Proof/Certificates/Slice0/Obligations.lean ====
section
/-! DEFINITION. The statements for the provers, one `def Obligations.<Name> : Prop` each. OBLIGATIONS.json lists them. -/

open Sys2Proof Sys2Proof.Machine

/-! ### Encoding -/

/-- Decoding what is encoded gives the instruction back, whatever follows it (30_encoding.md, sections 1 to 4). -/
def Obligations.DecodeUndoesEncode : Prop :=
  ∀ (i : Instr) (rest : List Byte), i.wf = true → decode (encode i ++ rest) = .ok (i, rest)

/-- What decodes is a well-formed instruction, and its bytes are the ones that were decoded: every byte string has one meaning
(30_encoding.md, section 4). -/
def Obligations.EncodeUndoesDecode : Prop :=
  ∀ (bs : List Byte) (i : Instr) (rest : List Byte), decode bs = .ok (i, rest) → i.wf = true ∧ bs = encode i ++ rest

/-- The length of an instruction is found from its first byte, as `Length(b)` of R66 gives it; an illegal opcode takes no
operand byte. That NOOP and NOT take none is the spec's decision D8. -/
def Obligations.LengthsFollowTheFirstByte : Prop :=
  ∀ b x y : Byte,
    (encode (instrOf b x y)).head? = some b ∧
    (encode (instrOf b x y)).length = 1 + operandBytes b ∧
    (∀ n, specLength b = some n → 1 + operandBytes b = n) ∧
    (specLength b = none → operandBytes b = 0)

/-- A few encodings of 30_encoding.md and 95_test_vectors.md, one or more of each family. -/
def Obligations.SampleBytesDecode : Prop :=
  decode [0x00] = .ok (.noop .imm8, []) ∧
  decode [0x21, 0x10] = .ok (.lda (.mem8 0x10), []) ∧
  decode [0x62, 0x81, 0x00] = .ok (.sam (.imm16 0x8100), []) ∧
  decode [0xC3] = .ok (.sar .carry, []) ∧
  decode [0x24, 0x10] = .ok (.jz 0x10, []) ∧
  decode [0xE4, 0x10] = .ok (.jmpM7 0x10, []) ∧
  decode [0x45, 0x00] = .ok (.psh (.reg 0), []) ∧
  decode [0xE6] = .ok (.popPc, []) ∧
  decode [0xA8, 0x01, 0x02] = .ok (.add (.pair 1 2), []) ∧
  decode [0xEB] = .ok (.not .pc, []) ∧
  decode [0xFF] = .ok (.halt, []) ∧
  decode [0xDF] = .ok (.unknown31 .carry, []) ∧
  decode [0x0E, 0x00] = .ok (.unknown14 .imm8, [0x00])

/-- The counts of R69: of the 256 first bytes, 107 are legal instructions, one is HALT, 5 are jumps with an illegal condition
and 143 are illegal opcodes (R69 is the spec's own derivation from R68). -/
def Obligations.FirstBytesAreCounted : Prop :=
  let first := (List.range 256).map fun n => instrOf (BitVec.ofNat 8 n) 0 0
  first.countP (fun i => decide (i.stopCode = none) && decide (i ≠ .halt)) = 107 ∧
  first.countP (fun i => decide (i = .halt)) = 1 ∧
  first.countP (fun i => decide (i.stopCode = some 3)) = 5 ∧
  first.countP (fun i => decide (i.stopCode = some 1)) = 143

/-! ### The step -/

/-- When the bytes from the pc on are those of a well-formed instruction, a step executes that instruction, and then the refresh
check follows unless it faulted (40_execution_cycle.md section 1, 48_system_loop.md section 1). -/
def Obligations.StepRunsTheDecodedInstruction : Prop :=
  ∀ (s : State) (i : Instr), s.run = .running → i.wf = true →
    (∀ (n : Nat) (v : Byte), (encode i)[n]? = some v → memRead s (s.pc + BitVec.ofNat 16 n) = .ok v) →
    step s =
      match exec i s with
      | .next t => if t.io.read 0x00 = 1 then refreshService t else .next t
      | .fault f => .fault f
      | .refused r => .refused r

/-- Halted and Faulted have no step: the model refuses one by name (R23, R74, R132; I12, I18). -/
def Obligations.OnlyRunningSteps : Prop :=
  ∀ s : State,
    (s.run = .halted → step s = .refused .halted) ∧
    (∀ f, s.run = .faulted f → step s = .refused .faulted)

/-- The order of the checks while an instruction is fetched (60_exceptions.md section 1; the order is the spec's decision D12):
the instruction byte; an illegal opcode before any operand byte; the operand bytes in address order; in mode 5 the first index
before the second byte. -/
def Obligations.FetchFaultsComeInOrder : Prop :=
  ∀ s : State, s.run = .running →
    (∀ c, memRead s s.pc = .error c → step s = .fault (.cpu c s.pc s.pc)) ∧
    (∀ b : Byte, memRead s s.pc = .ok b → 13 < b.toNat % 32 → b ≠ 0xFF →
      step s = .fault (.cpu (.unknownOpcode b) s.pc s.pc)) ∧
    (∀ (b : Byte) c, memRead s s.pc = .ok b → 1 ≤ operandBytes b → memRead s (s.pc + 1) = .error c →
      step s = .fault (.cpu c s.pc (s.pc + 1))) ∧
    (∀ b x : Byte, memRead s s.pc = .ok b → operandBytes b = 2 → b.toNat / 32 = 5 → memRead s (s.pc + 1) = .ok x →
      8 ≤ x.toNat → step s = .fault (.cpu (.badRegisterIndex x.zext16) s.pc (s.pc + 1))) ∧
    (∀ (b x : Byte) c, memRead s s.pc = .ok b → operandBytes b = 2 → (b.toNat / 32 = 5 → x.toNat < 8) →
      memRead s (s.pc + 1) = .ok x → memRead s (s.pc + 2) = .error c → step s = .fault (.cpu c s.pc (s.pc + 2)))

/-- The model's placing of an instruction at the pc: whatever the pc, the next step runs exactly it (assumption log 1, the model's
own convention). The premise is the invariant, which rules out stores that are not in canonical form. -/
def Obligations.PlacedInstructionRuns : Prop :=
  ∀ (s : State) (nbits w : Nat) (i : Instr), s.inv = true → decodeTableWord nbits w = some i →
    (s.withFetchWord nbits w).pc = s.pc ∧ (s.withFetchWord nbits w).regs = s.regs ∧
    step (s.withFetchWord nbits w) = afterCpuStep (exec i (s.withFetchWord nbits w))

/-- What a fault of a step records (R133; the fields are the spec's decisions D13 and D30, log 22): in phase cpu the instruction's
address and a pc at most two bytes on; in phase render, where a Cpu step has requested a refresh, the pc after that step in both
pcs and a content offset past the end. No step raises code 2, 7 or 9 (R70, R46, R134); that code 7 is unreachable is the spec's
decision D6 (log 13). -/
def Obligations.FaultRecordsAreAsSpecified : Prop :=
  ∀ (s : State) (f : Fault), step s = .fault f →
    (∃ c p, f = .cpu c s.pc p ∧ (p = s.pc ∨ p = s.pc + 1 ∨ p = s.pc + 2) ∧ f.code ∉ [2, 7, 9]) ∨
    (∃ a k u, cpuStep s = .next u ∧ u.io.read 0x00 = 1 ∧ u.cart.contentLength ≤ k ∧
      f = .render (.contentOutOfRange a k) u.pc u.pc)

/-! ### Reset and the invariant -/

/-- Reset with any cartridge (R36, R147): the sp is the source's 0xFFFF, the pc the header's entry (D14), everything else zero
(D15) but the content, which is as loaded. -/
def Obligations.ResetValues : Prop :=
  ∀ (h : Header) (content0 : Memory),
    let s := State.resetWith h content0
    s.cart = h ∧ (∀ i, s.reg i = 0) ∧ s.pc = h.entry ∧ s.sp = 0xFFFF ∧ s.flags = 0 ∧ s.run = .running ∧
    s.content = content0 ∧
    (∀ k, s.io.read k = 0 ∧ s.ram.read k = 0 ∧ s.desc.read k = 0 ∧ s.stack.read k = 0 ∧ s.fb.read k = 0)

/-- The invariant holds after reset with any cartridge whose content is in canonical form and L bytes long. -/
def Obligations.ResetMeetsTheInvariant : Prop :=
  State.reset.inv = true ∧
  ∀ (h : Header) (content0 : Memory), content0.wf = true → content0.within h.contentLength = true →
    (State.resetWith h content0).inv = true

/-- Every step keeps the invariant: the stores stay canonical and within their sizes, the framebuffer holds palette indices,
FLAGS bits 3..7 stay 0, and no refresh is left pending. -/
def Obligations.EveryStepKeepsTheInvariant : Prop :=
  ∀ s t : State, s.inv = true → step s = .next t → t.inv = true

/-- The header fields are constants of the run, and a step that does not fault ends Running or Halted (R35, R131). -/
def Obligations.StepKeepsTheHeader : Prop :=
  ∀ s t : State, step s = .next t → t.cart = s.cart ∧ (t.run = .running ∨ t.run = .halted)

/-! ### Memory -/

/-- The read-after-write law (20_memory.md section 2): what a writable address reads back, which fault any other address raises
(that a content offset past the end faults is the spec's decision D7, log 14), and the only two addresses of one byte. The premise
is the invariant, which rules out stores that are not in canonical form. -/
def Obligations.ReadAfterWrite : Prop :=
  (∀ (s : State) (a : Word) (v : Byte), s.inv = true → Writable s a →
    ∃ t, memWrite s a v = .ok t ∧ memRead t a = .ok v) ∧
  (∀ (s : State) (a : Word) (v : Byte), ¬ Writable s a →
    memWrite s a v = .error
      (if 0xA100 ≤ a.toNat then .readOnlyWrite a
       else if 0x4000 ≤ a.toNat then .singleBankAccess a
       else .contentOutOfRange a a.toNat)) ∧
  (∀ a b : Word, a ≠ b → backingOf a = backingOf b →
    ∃ j, j < 0x3000 ∧ ((a.toNat = 0xA100 + j ∧ b.toNat = 0x4000 + j) ∨ (b.toNat = 0xA100 + j ∧ a.toNat = 0x4000 + j)))

/-- A write changes exactly one byte of backing store and nothing else (20_memory.md section 2): every address that names
another byte reads as before, and no register, flag, header field or framebuffer byte changes. -/
def Obligations.WriteChangesOneByte : Prop :=
  ∀ (s t : State) (a : Word) (v : Byte), memWrite s a v = .ok t →
    MemorySameBut s t a ∧ OutsideSame s t ∧ t.regs = s.regs ∧ t.pc = s.pc ∧ t.sp = s.sp ∧ t.flags = s.flags ∧ t.run = s.run

/-- Which reads go through, and what the others raise: the ladder of MemRead (20_memory.md section 2; the content check is the
spec's decision D7). -/
def Obligations.ReadsGoThroughExactlyWhenReadable : Prop :=
  ∀ (s : State) (a : Word),
    (Readable s a → ∃ v, memRead s a = .ok v) ∧
    (¬ Readable s a →
      memRead s a = .error
        (if 0xA100 ≤ a.toNat then .contentOutOfRange a (a.toNat - 0xA100 + 0x4000)
         else if 0x4000 ≤ a.toNat then .singleBankAccess a
         else .contentOutOfRange a a.toNat))

/-- I/O, RAM and stack (20_memory.md section 1): a read returns the byte of the array and a write stores into it, with no other
effect. That the stack begins at 0xD36B, with index 0x16B, is the spec's decisions D4 and D5 (log 13). -/
def Obligations.ArraysAreReadAndWrittenInPlace : Prop :=
  ∀ (s : State) (a : Word) (v : Byte),
    (0x8000 ≤ a.toNat → a.toNat ≤ 0x80FF →
      memRead s a = .ok (s.io.read (a &&& 0xFF).toNat) ∧
      memWrite s a v = .ok { s with io := s.io.write (a &&& 0xFF).toNat v }) ∧
    (0x8100 ≤ a.toNat → a.toNat ≤ 0xA0FF →
      memRead s a = .ok (s.ram.read (a.toNat - 0x8100)) ∧
      memWrite s a v = .ok { s with ram := s.ram.write (a.toNat - 0x8100) v }) ∧
    (0xD36B ≤ a.toNat → a.toNat ≤ 0xFFFF →
      0x16B ≤ a.toNat - 0xD200 ∧ a.toNat - 0xD200 ≤ 0x2DFF ∧
      memRead s a = .ok (s.stack.read (a.toNat - 0xD200)) ∧
      memWrite s a v = .ok { s with stack := s.stack.write (a.toNat - 0xD200) v })

/-- The fixed bank, the video window and the descriptor table (20_memory.md section 1; the content check is the spec's decision
D7, the end of the descriptor table D4). -/
def Obligations.ContentWindowsAndDescriptors : Prop :=
  ∀ (s : State) (a : Word) (v : Byte),
    (a.toNat ≤ 0x3FFF → a.toNat < s.cart.contentLength →
      memRead s a = .ok (s.content.read a.toNat) ∧
      memWrite s a v = .ok { s with content := s.content.write a.toNat v }) ∧
    (0xA100 ≤ a.toNat → a.toNat ≤ 0xD0FF →
      (a.toNat - 0xA100 + 0x4000 < s.cart.contentLength →
        memRead s a = .ok (s.content.read (a.toNat - 0xA100 + 0x4000))) ∧
      memWrite s a v = .error (.readOnlyWrite a)) ∧
    (0xD100 ≤ a.toNat → a.toNat ≤ 0xD36A →
      memRead s a = .ok (s.desc.read (a.toNat - 0xD100)) ∧
      memWrite s a v = .ok { s with desc := s.desc.write (a.toNat - 0xD100) v })

/-- The switchable bank (20_memory.md section 1; that the content always reaches it is the spec's own derivation): with one ROM bank
or none every access raises SingleBankAccess, the fetches of the instruction byte and of each operand byte included; with two or
more the index is the raw address, no content fault is possible, and I/O byte 0x8003 selects nothing. -/
def Obligations.SwitchableBankIsRawIndexed : Prop :=
  ∀ (s : State) (a : Word) (v : Byte), 0x4000 ≤ a.toNat → a.toNat ≤ 0x7FFF →
    (s.cart.romBanks.toNat ≤ 1 →
      memRead s a = .error (.singleBankAccess a) ∧
      memWrite s a v = .error (.singleBankAccess a) ∧
      (s.run = .running → s.pc = a → step s = .fault (.cpu (.singleBankAccess a) a a)) ∧
      (∀ b, s.run = .running → memRead s s.pc = .ok b → 1 ≤ operandBytes b → s.pc + 1 = a →
        step s = .fault (.cpu (.singleBankAccess a) s.pc a)) ∧
      (∀ b x : Byte, s.run = .running → memRead s s.pc = .ok b → operandBytes b = 2 → (b.toNat / 32 = 5 → x.toNat < 8) →
        memRead s (s.pc + 1) = .ok x → s.pc + 2 = a → step s = .fault (.cpu (.singleBankAccess a) s.pc a))) ∧
    (2 ≤ s.cart.romBanks.toNat →
      a.toNat < s.cart.contentLength ∧
      memRead s a = .ok (s.content.read a.toNat) ∧
      memWrite s a v = .ok { s with content := s.content.write a.toNat v } ∧
      ∀ w : Byte, memRead { s with io := s.io.write 0x03 w } a = memRead s a)

/-- With two ROM banks or more a write at 0x4000 + j is seen at 0xA100 + j; with fewer, no store of the program changes what the
video window shows (20_memory.md section 2; R50 is the spec's own derivation). -/
def Obligations.VideoWindowAliasesTheSwitchableBank : Prop :=
  ∀ (s : State) (v : Byte) (j : Nat), s.inv = true → j < 0x3000 →
    (2 ≤ s.cart.romBanks.toNat →
      ∃ t, memWrite s (BitVec.ofNat 16 (0x4000 + j)) v = .ok t ∧ memRead t (BitVec.ofNat 16 (0xA100 + j)) = .ok v) ∧
    (s.cart.romBanks.toNat ≤ 1 → ∀ (a : Word) (t : State), memWrite s a v = .ok t →
      memRead t (BitVec.ofNat 16 (0xA100 + j)) = memRead s (BitVec.ofNat 16 (0xA100 + j)))

/-! ### Operands -/

/-- Modes 0, 2, 3 and 6 (40_execution_cycle.md section 3): the bytes each consumes and the value it yields; mode 2 faults only on an
index of 8 or more. The form of the fault record is the spec's decisions D13 and D30 (log 22). -/
def Obligations.ImmediateRegisterAndCarryOperands : Prop :=
  ∀ s : State,
    (∀ v, (Operand.imm8 v).stream = [v] ∧ resolve s (.imm8 v) = .ok v.zext16 ∧ v.zext16.toNat ≤ 255) ∧
    (∀ i : Byte, (Operand.reg i).stream = [i] ∧
      resolve s (.reg i) =
        if h : i.toNat < 8 then .ok (s.reg ⟨i.toNat, h⟩).zext16
        else .error (.cpu (.badRegisterIndex i.zext16) s.pc (s.pc + 1))) ∧
    (∀ h l : Byte, (Operand.imm16 (h.pairWith l)).stream = [h, l] ∧
      ∃ v, resolve s (.imm16 (h.pairWith l)) = .ok v ∧ v.toNat = h.toNat * 256 + l.toNat) ∧
    (Operand.carry.stream = [] ∧ resolve s .carry = .ok (if s.flagC then 1 else 0))

/-- Modes 1, 4, 5 and 7 (40_execution_cycle.md section 3). That mode 1 faults where the content is too short is the spec's decision
D7, the byte order of modes 4 and 5 is D9, the index checks of mode 5 are D11 and D12, and the value of mode 7 is D10. -/
def Obligations.MemoryPairAndPcOperands : Prop :=
  ∀ s : State,
    (∀ a : Byte, (Operand.mem8 a).stream = [a] ∧
      resolve s (.mem8 a) =
        if a.toNat < s.cart.contentLength then .ok (s.content.read a.toNat).zext16
        else .error (.cpu (.contentOutOfRange a.zext16 a.toNat) s.pc (s.pc + 1))) ∧
    (∀ h l : Byte, (Operand.mem16 (h.pairWith l)).stream = [h, l] ∧
      (∀ v, memRead s (h.pairWith l) = .ok v → resolve s (.mem16 (h.pairWith l)) = .ok v.zext16) ∧
      (∀ c, memRead s (h.pairWith l) = .error c →
        resolve s (.mem16 (h.pairWith l)) = .error (.cpu c s.pc (s.pc + 2)))) ∧
    (∀ ih il : Byte, (Operand.pair ih il).stream = [ih, il] ∧
      (∀ (hh : ih.toNat < 8) (hl : il.toNat < 8),
        ∃ v, resolve s (.pair ih il) = .ok v ∧
          v.toNat = (s.reg ⟨ih.toNat, hh⟩).toNat * 256 + (s.reg ⟨il.toNat, hl⟩).toNat) ∧
      (8 ≤ ih.toNat → resolve s (.pair ih il) = .error (.cpu (.badRegisterIndex ih.zext16) s.pc (s.pc + 1))) ∧
      (ih.toNat < 8 → 8 ≤ il.toNat →
        resolve s (.pair ih il) = .error (.cpu (.badRegisterIndex il.zext16) s.pc (s.pc + 2)))) ∧
    (Operand.pc.stream = [] ∧ resolve s .pc = .ok s.pc)

/-- An operand resolves exactly when it is ready: nothing but an unreadable data address or an index of 8 or more faults
(40_execution_cycle.md section 3). -/
def Obligations.OperandsResolveExactlyWhenReady : Prop :=
  ∀ (s : State) (o : Operand),
    (OperandReady s o = true → ∃ v, resolve s o = .ok v) ∧
    (OperandReady s o = false → ∃ c n, resolve s o = .error (.cpu c s.pc (s.pc + BitVec.ofNat 16 n)) ∧ 1 ≤ n ∧ n ≤ o.bytes)

/-! ### What each instruction does: it completes, and this is the state it leaves -/

/-- HALT (40_execution_cycle.md section 1; that Halted has no step is the spec's decision D17): the run state becomes Halted
and nothing else changes, the pc included; then no step follows. -/
def Obligations.HaltStopsInPlace : Prop :=
  ∀ s : State, exec .halt s = .next { s with run := .halted } ∧ step { s with run := .halted } = .refused .halted

/-- NOOP (41_load_store.md): no effect, whatever the mode bits; the pc goes on by one (D8). -/
def Obligations.NoopOnlyAdvances : Prop :=
  ∀ (m : Mode) (s : State), (encode (.noop m)).length = 1 ∧ exec (.noop m) s = .next { s with pc := s.pc + 1 }

/-- LDA (41_load_store.md; the narrowing to the low byte is the spec's decision D1): every mode. -/
def Obligations.LdaLoadsTheLowByte : Prop :=
  ∀ (o : Operand) (s : State),
    (OperandReady s o = true →
      ∃ v, resolve s o = .ok v ∧
        exec (.lda o) s =
          .next { s with regs := s.regs.set 0 (BitVec.ofNat 8 v.toNat), pc := s.pc + BitVec.ofNat 16 (1 + o.bytes) }) ∧
    (∀ f, resolve s o = .error f → exec (.lda o) s = .fault f)

/-- SAM (41_load_store.md): R0 is stored at the operand's value; the byte reads back, even where it is the instruction's own. A fault
of the operand is the instruction's. -/
def Obligations.SamStoresR0 : Prop :=
  ∀ (o : Operand) (s : State),
    (∀ a, resolve s o = .ok a →
      (Writable s a → ∃ u, memWrite s a (s.reg 0) = .ok u ∧
        exec (.sam o) s = .next { u with pc := s.pc + BitVec.ofNat 16 (1 + o.bytes) } ∧
        (s.inv = true → memRead u a = .ok (s.reg 0))) ∧
      (∀ c, memWrite s a (s.reg 0) = .error c →
        exec (.sam o) s = .fault (.cpu c s.pc (s.pc + BitVec.ofNat 16 o.bytes)))) ∧
    (∀ f, resolve s o = .error f → exec (.sam o) s = .fault f)

/-- SAR (41_load_store.md; that the whole 16-bit value is checked and used is the spec's decisions D1 and D11). A fault of the
operand is the instruction's. -/
def Obligations.SarStoresIntoTheIndexedRegister : Prop :=
  ∀ (o : Operand) (s : State),
    (∀ v, resolve s o = .ok v →
      (∀ h : v.toNat < 8, exec (.sar o) s =
        .next { s with regs := s.regs.set v.toNat (s.reg 0) h, pc := s.pc + BitVec.ofNat 16 (1 + o.bytes) }) ∧
      (8 ≤ v.toNat → exec (.sar o) s = .fault (.cpu (.badRegisterIndex v) s.pc (s.pc + BitVec.ofNat 16 o.bytes)))) ∧
    (∀ f, resolve s o = .error f → exec (.sar o) s = .fault f)

/-- JMP, JZ and JNZ (R96, R97, R98): the next instruction is at the target, or two bytes on; nothing else changes. -/
def Obligations.JumpsGoToTheTargetOrOn : Prop :=
  ∀ (t : Byte) (s : State),
    encode (.jmp t) = [0x04, t] ∧ encode (.jz t) = [0x24, t] ∧ encode (.jnz t) = [0x44, t] ∧
    exec (.jmp t) s = .next { s with pc := t.zext16 } ∧
    exec (.jz t) s = .next { s with pc := if s.flags.getLsbD 0 = true then t.zext16 else s.pc + 2 } ∧
    exec (.jnz t) s = .next { s with pc := if s.flags.getLsbD 0 = false then t.zext16 else s.pc + 2 }

/-- JMP with modes 3..7 (42_jump.md): the target byte is fetched, then the step raises UnknownJumpCondition with the instruction
byte. That the fetch comes before the check is the spec's decision D12 (log 18), the record's two pcs are D13 and D30 (log 22). -/
def Obligations.IllegalJumpConditionsFault : Prop :=
  ∀ (t : Byte) (s : State),
    (∀ p : Instr × Byte,
      p ∈ [(Instr.jmpM3 t, (0x64 : Byte)), (.jmpM4 t, 0x84), (.jmpM5 t, 0xA4), (.jmpM6 t, 0xC4), (.jmpM7 t, 0xE4)] →
      encode p.1 = [p.2, t] ∧ exec p.1 s = .fault (.cpu (.unknownJumpCondition p.2) s.pc (s.pc + 1)))

/-- PSH (43_stack.md; the pushed byte is the low byte by the spec's decision D1, the wrap of sp is D3). A fault of the operand is the
instruction's. -/
def Obligations.PshStoresAtSpThenDecrements : Prop :=
  ∀ (o : Operand) (s : State),
    (∀ v, resolve s o = .ok v →
      (Writable s s.sp → ∃ u, memWrite s s.sp (BitVec.ofNat 8 v.toNat) = .ok u ∧
        exec (.psh o) s = .next { u with sp := s.sp - 1, pc := s.pc + BitVec.ofNat 16 (1 + o.bytes) }) ∧
      (∀ c, memWrite s s.sp (BitVec.ofNat 8 v.toNat) = .error c →
        exec (.psh o) s = .fault (.cpu c s.pc (s.pc + BitVec.ofNat 16 o.bytes)))) ∧
    (∀ f, resolve s o = .error f → exec (.psh o) s = .fault f)

/-- POP, modes 0..6 (43_stack.md; the index check is the spec's decision D11, its place D12, the wrap of sp D3). A fault of the
operand is the instruction's. -/
def Obligations.PopLoadsTheIndexedRegister : Prop :=
  ∀ (o : Operand) (s : State), o ≠ .pc →
    (∀ v, resolve s o = .ok v →
      (∀ h : v.toNat < 8, Readable s (s.sp + 1) →
        ∃ b, memRead s (s.sp + 1) = .ok b ∧
          exec (.pop o) s =
            .next { s with sp := s.sp + 1, regs := s.regs.set v.toNat b h, pc := s.pc + BitVec.ofNat 16 (1 + o.bytes) }) ∧
      (8 ≤ v.toNat → exec (.pop o) s = .fault (.cpu (.badRegisterIndex v) s.pc (s.pc + BitVec.ofNat 16 o.bytes))) ∧
      (∀ c, v.toNat < 8 → memRead s (s.sp + 1) = .error c →
        exec (.pop o) s = .fault (.cpu c s.pc (s.pc + BitVec.ofNat 16 o.bytes)))) ∧
    (∀ f, resolve s o = .error f → exec (.pop o) s = .fault f)

/-- POP.pc (43_stack.md; that it goes on one past the popped byte is the spec's own derivation, conflict C8): the new pc lies in
0x0001..0x0100. -/
def Obligations.PopPcGoesOnPastThePoppedByte : Prop :=
  ∀ s : State,
    (Readable s (s.sp + 1) → ∃ (b : Byte) (p : Word), memRead s (s.sp + 1) = .ok b ∧ p.toNat = b.toNat + 1 ∧
      exec .popPc s = .next { s with sp := s.sp + 1, pc := p }) ∧
    (∀ c, memRead s (s.sp + 1) = .error c → exec .popPc s = .fault (.cpu c s.pc s.pc))

/-- CMP (44_compare_alu.md; the comparison of all 16 bits is the spec's decision D1). -/
def Obligations.CmpSetsZeroOnEquality : Prop :=
  ∀ (o : Operand) (s : State),
    (OperandReady s o = true →
      ∃ v t, resolve s o = .ok v ∧ exec (.cmp o) s = .next t ∧
        t.flagZ = decide ((s.reg 0).toNat = v.toNat) ∧ (∀ k, k ≠ 0 → t.flags.getLsbD k = s.flags.getLsbD k) ∧
        t = { s with flags := t.flags, pc := s.pc + BitVec.ofNat 16 (1 + o.bytes) }) ∧
    (∀ f, resolve s o = .error f → exec (.cmp o) s = .fault f)

/-- ADD (R105): C is set from R0 before the add, R0 takes the sum modulo 256, Z and N come from the new R0. -/
def Obligations.AddSetsCarryFromR0Before : Prop :=
  ∀ (o : Operand) (s : State),
    (encode (.add o)).head? = some (BitVec.ofNat 8 (0x08 + 0x20 * o.mode.bits.toNat)) ∧
    (OperandReady s o = true →
      ∃ v r t, resolve s o = .ok v ∧ r.toNat = ((s.reg 0).toNat + v.toNat) % 256 ∧ exec (.add o) s = .next t ∧
        t.flagC = decide (s.reg 0 = 0) ∧ t.flagZ = decide (r = 0) ∧ t.flagN = r.getLsbD 7 ∧
        (∀ k, 3 ≤ k → t.flags.getLsbD k = s.flags.getLsbD k) ∧
        t = { s with regs := s.regs.set 0 r, flags := t.flags, pc := s.pc + BitVec.ofNat 16 (1 + o.bytes) }) ∧
    (∀ f, resolve s o = .error f → exec (.add o) s = .fault f)

/-- AND (R106). -/
def Obligations.AndMasksR0 : Prop :=
  ∀ (o : Operand) (s : State),
    (encode (.and o)).head? = some (BitVec.ofNat 8 (0x09 + 0x20 * o.mode.bits.toNat)) ∧
    (OperandReady s o = true →
      ∃ v r t, resolve s o = .ok v ∧ r.toNat = ((s.reg 0).toNat &&& v.toNat) % 256 ∧ exec (.and o) s = .next t ∧
        t.flagZ = decide (r = 0) ∧ t.flagN = r.getLsbD 7 ∧
        (∀ k, k = 1 ∨ 3 ≤ k → t.flags.getLsbD k = s.flags.getLsbD k) ∧
        t = { s with regs := s.regs.set 0 r, flags := t.flags, pc := s.pc + BitVec.ofNat 16 (1 + o.bytes) }) ∧
    (∀ f, resolve s o = .error f → exec (.and o) s = .fault f)

/-- OR (44_compare_alu.md; the loss of the operand's high byte is the spec's decision D1). -/
def Obligations.OrMergesIntoR0 : Prop :=
  ∀ (o : Operand) (s : State),
    (OperandReady s o = true →
      ∃ v r t, resolve s o = .ok v ∧ r.toNat = ((s.reg 0).toNat ||| v.toNat) % 256 ∧ exec (.or o) s = .next t ∧
        t.flagZ = decide (r = 0) ∧ t.flagN = r.getLsbD 7 ∧
        (∀ k, k = 1 ∨ 3 ≤ k → t.flags.getLsbD k = s.flags.getLsbD k) ∧
        t = { s with regs := s.regs.set 0 r, flags := t.flags, pc := s.pc + BitVec.ofNat 16 (1 + o.bytes) }) ∧
    (∀ f, resolve s o = .error f → exec (.or o) s = .fault f)

/-- NOT (44_compare_alu.md; that the mode is ignored is the spec's decision D8). -/
def Obligations.NotComplementsR0 : Prop :=
  ∀ (m : Mode) (s : State),
    ∃ r t, r.toNat = 255 - (s.reg 0).toNat ∧ exec (.not m) s = .next t ∧
      t.flagZ = decide (r = 0) ∧ t.flagN = r.getLsbD 7 ∧
      (∀ k, k = 1 ∨ 3 ≤ k → t.flags.getLsbD k = s.flags.getLsbD k) ∧
      t = { s with regs := s.regs.set 0 r, flags := t.flags, pc := s.pc + 1 }

/-- SHR (44_compare_alu.md): a logical shift, 0 from a count of 8 on. That the whole 16-bit operand is the count is the spec's decision
D1 (log 11). -/
def Obligations.ShrShiftsR0Right : Prop :=
  ∀ (o : Operand) (s : State),
    (encode (.shr o)).head? = some (BitVec.ofNat 8 (0x0C + 0x20 * o.mode.bits.toNat)) ∧
    (OperandReady s o = true →
      ∃ n r t, resolve s o = .ok n ∧ r.toNat = (if 8 ≤ n.toNat then 0 else (s.reg 0).toNat / 2 ^ n.toNat) ∧
        exec (.shr o) s = .next t ∧
        t.flagZ = decide (r = 0) ∧ t.flagN = r.getLsbD 7 ∧
        (∀ k, k = 1 ∨ 3 ≤ k → t.flags.getLsbD k = s.flags.getLsbD k) ∧
        t = { s with regs := s.regs.set 0 r, flags := t.flags, pc := s.pc + BitVec.ofNat 16 (1 + o.bytes) }) ∧
    (∀ f, resolve s o = .error f → exec (.shr o) s = .fault f)

/-- SHL (44_compare_alu.md): the bits shifted out are lost, 0 from a count of 8 on. That the whole 16-bit operand is the count is the
spec's decision D1 (log 11). -/
def Obligations.ShlShiftsR0Left : Prop :=
  ∀ (o : Operand) (s : State),
    (encode (.shl o)).head? = some (BitVec.ofNat 8 (0x0D + 0x20 * o.mode.bits.toNat)) ∧
    (OperandReady s o = true →
      ∃ n r t, resolve s o = .ok n ∧
        r.toNat = (if 8 ≤ n.toNat then 0 else ((s.reg 0).toNat * 2 ^ n.toNat) % 256) ∧
        exec (.shl o) s = .next t ∧
        t.flagZ = decide (r = 0) ∧ t.flagN = r.getLsbD 7 ∧
        (∀ k, k = 1 ∨ 3 ≤ k → t.flags.getLsbD k = s.flags.getLsbD k) ∧
        t = { s with regs := s.regs.set 0 r, flags := t.flags, pc := s.pc + BitVec.ofNat 16 (1 + o.bytes) }) ∧
    (∀ f, resolve s o = .error f → exec (.shl o) s = .fault f)

/-- The illegal opcodes 14..31 (40_execution_cycle.md section 1; that no operand byte is read is the spec's decision D12): each
faults with code 1, the instruction byte as detail, and both pcs its own address. -/
def Obligations.IllegalOpcodesFault : Prop :=
  ∀ (i : Instr) (s : State), i.stopCode = some 1 →
    ∃ b : Byte, encode i = [b] ∧ 14 ≤ b.toNat % 32 ∧ exec i s = .fault (.cpu (.unknownOpcode b) s.pc s.pc)

/-! ### What no instruction does -/

/-- The pc after an instruction that does not fault (40_execution_cycle.md section 1; R77 is the spec's own derivation). -/
def Obligations.PcAfterEveryInstruction : Prop :=
  ∀ (i : Instr) (s t : State), i.wf = true → exec i s = .next t →
    match i with
    | .halt => t.pc = s.pc
    | .jmp x => t.pc = x.zext16
    | .jz x => t.pc = if s.flagZ then x.zext16 else s.pc + 2
    | .jnz x => t.pc = if s.flagZ then s.pc + 2 else x.zext16
    | .popPc => ∃ m, memRead s (s.sp + 1) = .ok m ∧ t.pc = m.zext16 + 1
    | i => t.pc = s.pc + BitVec.ofNat 16 (encode i).length

/-- Every flag write (10_state.md section 4): CMP writes Z; ADD writes Z, C and N; AND, OR, NOT, SHR and SHL write Z and N (for N,
log 9 says why the instruction rules are followed and not R21's table); nothing writes bits 3..7 (D16). -/
def Obligations.OnlyCompareAndAluWriteFlags : Prop :=
  ∀ (i : Instr) (s t : State), exec i s = .next t →
    (∀ k, 3 ≤ k → t.flags.getLsbD k = s.flags.getLsbD k) ∧
    match i with
    | .cmp _ => t.flagC = s.flagC ∧ t.flagN = s.flagN
    | .add _ => True
    | .and _ => t.flagC = s.flagC
    | .or _ => t.flagC = s.flagC
    | .not _ => t.flagC = s.flagC
    | .shr _ => t.flagC = s.flagC
    | .shl _ => t.flagC = s.flagC
    | _ => t.flags = s.flags

/-- Every register write (10_state.md section 1; R17 is the spec's own derivation): R0 by LDA and the ALU instructions, the
indexed register by SAR and POP, and no register by any other. -/
def Obligations.OnlyTheDestinationRegisterChanges : Prop :=
  ∀ (i : Instr) (s t : State), exec i s = .next t →
    match i with
    | .lda _ => ∀ j : Fin 8, j ≠ 0 → t.reg j = s.reg j
    | .add _ => ∀ j : Fin 8, j ≠ 0 → t.reg j = s.reg j
    | .and _ => ∀ j : Fin 8, j ≠ 0 → t.reg j = s.reg j
    | .or _ => ∀ j : Fin 8, j ≠ 0 → t.reg j = s.reg j
    | .not _ => ∀ j : Fin 8, j ≠ 0 → t.reg j = s.reg j
    | .shr _ => ∀ j : Fin 8, j ≠ 0 → t.reg j = s.reg j
    | .shl _ => ∀ j : Fin 8, j ≠ 0 → t.reg j = s.reg j
    | .sar o => ∀ v, resolve s o = .ok v → ∀ j : Fin 8, j.val ≠ v.toNat → t.reg j = s.reg j
    | .pop o => ∀ v, resolve s o = .ok v → ∀ j : Fin 8, j.val ≠ v.toNat → t.reg j = s.reg j
    | _ => t.regs = s.regs

/-- sp is written only by PSH, POP and POP.pc, and no other instruction reads it: with another sp every other instruction does
the same (10_state.md section 3; the wrap is the spec's decision D3). -/
def Obligations.OnlyStackInstructionsUseSp : Prop :=
  ∀ (i : Instr) (s : State),
    match i with
    | .psh _ => ∀ t, exec i s = .next t → t.sp = s.sp - 1
    | .pop _ => ∀ t, exec i s = .next t → t.sp = s.sp + 1
    | .popPc => ∀ t, exec i s = .next t → t.sp = s.sp + 1
    | i =>
      (∀ t, exec i s = .next t → t.sp = s.sp) ∧
      ∀ x : Word, exec i { s with sp := x } =
        match exec i s with
        | .next t => .next { t with sp := x }
        | .fault f => .fault f
        | .refused r => .refused r

/-- Every store (20_memory.md section 1): SAM changes the byte its operand addresses, PSH the byte at sp, and no other
instruction changes a byte. Every other address reads as before. -/
def Obligations.OnlySamAndPshStore : Prop :=
  ∀ (i : Instr) (s t : State), exec i s = .next t →
    match i with
    | .sam o => ∀ a, resolve s o = .ok a → MemorySameBut s t a
    | .psh _ => MemorySameBut s t s.sp
    | _ => MemorySame s t ∧ t.content = s.content ∧ t.io = s.io ∧ t.ram = s.ram ∧ t.desc = s.desc ∧ t.stack = s.stack

/-- No instruction changes the header, the framebuffer or the host's input, and only HALT changes the run state (10_state.md
sections 5, 6 and 8; 47_tile_renderer.md). -/
def Obligations.NoInstructionTouchesTheRest : Prop :=
  ∀ (i : Instr) (s t : State), exec i s = .next t →
    OutsideSame s t ∧ (i ≠ .halt → t.run = s.run)

/-- What no program can observe never reaches what it can: two states that differ only in the framebuffer, in N and FLAGS bits
3..7, and in the header fields no rule reads, step to outcomes that differ only there (10_state.md sections 4, 6 and 8). -/
def Obligations.HiddenStateIsNeverObserved : Prop :=
  ∀ s t : State, hide s = hide t → seen (step s) = seen (step t)

/-! ### The refresh and the renderer -/

/-- The refresh check (48_system_loop.md section 1; that exactly 1 triggers is the spec's decision D18): any other value of
io[0x00] leaves the state alone; a service clears the trigger, injects the host's byte and draws the frame, and touches no
register, no flag, no run state and no other byte. The queue the byte is the oldest of is the model's own choice (log 5), and so is
the count of services (log 6). The premise on io rules out a store that is not in canonical form. -/
def Obligations.RefreshTouchesOnlyItsOwn : Prop :=
  ∀ s : State,
    (s.io.read 0x00 ≠ 1 → refreshCheck s = .next s) ∧
    (s.io.read 0x00 = 1 → refreshCheck s = refreshService s) ∧
    (∀ t, s.io.wf = true → refreshService s = .next t →
      t.io.read 0x00 = 0 ∧ (∀ b rest, s.snapshots = b :: rest → t.io.read 0x05 = b ∧ t.snapshots = rest) ∧
      (∀ k, k ≠ 0 → k ≠ 5 → t.io.read k = s.io.read k) ∧
      t.refreshes = s.refreshes + 1 ∧
      t = { s with io := t.io, fb := t.fb, snapshots := s.snapshots.tail, refreshes := s.refreshes + 1 })

/-- The picture (47_tile_renderer.md; the order of the entries is the spec's decision D21, the exact coordinates D20, the clear
D19): after a refresh every pixel of the 128×64 framebuffer is that of the last entry that covers it, or 0. -/
def Obligations.RefreshDrawsTheComposite : Prop :=
  ∀ s t : State, refreshService s = .next t →
    ∀ x y, x < 128 → y < 64 → (t.fb.read (x + y * 128)).toNat = composite s x y

/-- Pixel unpacking (R115): three bits of the 16-bit window whose low half is the byte the pixel starts in, a second byte past
the tile counting as zero. -/
def Obligations.PixelsAreThreeBitsOfTheWindow : Prop :=
  ∀ (tile : List Byte) (i : Nat), tile.length = 24 → i < 64 →
    (pixelOf tile i).toNat =
      ((tile.getD (i * 3 / 8) 0).toNat + 256 * (if i * 3 / 8 + 1 ≤ 23 then (tile.getD (i * 3 / 8 + 1) 0).toNat else 0))
        / 2 ^ (i * 3 % 8) % 8

/-- The row form of the unpacking (47_tile_renderer.md; R116 is the spec's own derivation). -/
def Obligations.PixelsByTileRow : Prop :=
  ∀ (tile : List Byte) (x y : Nat), tile.length = 24 → x < 8 → y < 8 →
    (pixelOf tile (8 * y + x)).toNat =
      ((tile.getD (3 * y) 0).toNat + (tile.getD (3 * y + 1) 0).toNat * 256 + (tile.getD (3 * y + 2) 0).toNat * 65536)
        / 2 ^ (3 * x) % 8

/-- Every byte of the framebuffer is in 0..7 after every refresh (47_tile_renderer.md; R120 is the spec's own derivation). -/
def Obligations.FramebufferHoldsPaletteIndices : Prop :=
  ∀ s t : State, refreshService s = .next t → ∀ p, (t.fb.read p).toNat < 8

/-- When a refresh completes and when it faults (47_tile_renderer.md, 48_system_loop.md, 70_reset_and_hazards.md section 2; the
fault is the spec's decisions D7 and D22, the full cartridge R149 is the spec's own derivation). A content that ends at or below
offset 0x4000 holds no tile, so the first tile byte of entry 0 is reported, with the pc after the step in both pcs. Any longer
content holds all 256 tiles, because the bank sizes leave no length between 0x4000 and 0x6000. -/
def Obligations.RefreshFaultsExactlyWithoutTileData : Prop :=
  ∀ s : State,
    (s.cart.contentLength ≤ 0x4000 →
      refreshService s =
        .fault (.render
          (.contentOutOfRange (BitVec.ofNat 16 (0xA100 + (s.desc.read 0).toNat * 24)) (0x4000 + (s.desc.read 0).toNat * 24))
          s.pc s.pc)) ∧
    (0x4000 < s.cart.contentLength → ∃ t, refreshService s = .next t) ∧
    (1 ≤ s.cart.romBanks.toNat → 1 ≤ s.cart.videoBanks.toNat → 0x4000 < s.cart.contentLength)

/-! ### The host -/

/-- `load` (48_system_loop.md section 3; the length check is the model's choice, log 24): a content of L bytes is loaded and
every byte reads back; any other length is a load error. -/
def Obligations.LoadPlacesTheCartridge : Prop :=
  ∀ (h : Header) (content0 : List Byte),
    (content0.length = h.contentLength →
      ∃ s, load h content0 = .ok s ∧ s.inv = true ∧ s = State.resetWith h s.content ∧
        ∀ k, k < content0.length → s.content.read k = content0.getD k 0) ∧
    (content0.length ≠ h.contentLength → load h content0 = .error .load)

/-- `step(snapshot)` (48_system_loop.md sections 1 and 3; the free byte is the spec's decision D23): if the step refreshes, the
host's byte is in io[0x05]; if it does not, the byte is not used. Whether it refreshed is read off the model's own counter (log 6),
the byte passes through the model's own queue (log 5), and the second case takes in the states of faulted steps, whose content
beside the record is the model's choice (log 7). -/
def Obligations.SnapshotIsUsedOnlyByARefresh : Prop :=
  ∀ (s t : State) (b : Byte), s.inv = true → s.run = .running → systemStep b s = .ok t →
    (t.refreshes = s.refreshes + 1 ∧ t.io.read 0x05 = b) ∨
    (t.refreshes = s.refreshes ∧ ∀ b' : Byte, systemStep b' s = .ok t)

/-- What a program reads at 0x8005 after a refresh of a step with these buttons held (10_state.md section 7, 48_system_loop.md
section 1): the table of bits 0 to 5 and 7. Bit 6 has no meaning and is whatever the host makes it (D23), so nothing is said of
it. Whether the step refreshed is read off the model's own counter (log 6); the byte passes through the model's own queue (log 5). -/
def Obligations.SnapshotBitsAreTheButtons : Prop :=
  ∀ (s t : State) (bit6 : Bool) (held : List Button), s.inv = true → s.run = .running →
    systemStep (snapshotOf bit6 held) s = .ok t → t.refreshes = s.refreshes + 1 →
    ∃ v : Byte, memRead t 0x8005 = .ok v ∧
      v.getLsbD 0 = decide (.a ∈ held) ∧
      v.getLsbD 1 = decide (.b ∈ held) ∧
      v.getLsbD 2 = decide (.up ∈ held) ∧
      v.getLsbD 3 = decide (.right ∈ held) ∧
      v.getLsbD 4 = decide (.down ∈ held) ∧
      v.getLsbD 5 = decide (.left ∈ held) ∧
      v.getLsbD 7 = decide (.select ∈ held ∨ .start ∈ held)
end

