-- ==== Sys2Proof/Laws/Decode.lean ====
section
/-! SUPPORT. The small lemmas of the decoder and the encoder: the fields of an instruction byte, modes, operands. -/

namespace Sys2Proof

@[simp] theorem opcodeOf_headByte (m : BitVec 3) (op : BitVec 5) : opcodeOf (headByte m op) = op := by
  revert m op; decide

@[simp] theorem modeBitsOf_headByte (m : BitVec 3) (op : BitVec 5) : modeBitsOf (headByte m op) = m := by
  revert m op; decide

/-- An instruction byte is the head byte of its two fields. -/
theorem headByte_fields (b : Byte) : headByte (modeBitsOf b) (opcodeOf b) = b := by
  revert b; decide

@[simp] theorem modeOf_bits (m : Mode) : modeOf m.bits = m := by cases m <;> rfl

@[simp] theorem bits_modeOf (m : BitVec 3) : (modeOf m).bits = m := by revert m; decide

/-- Only mode 7 with opcode 31 makes the byte of HALT. -/
theorem headByte_eq_halt (m : BitVec 3) (op : BitVec 5) : headByte m op = 0xFF ↔ m = 7 ∧ op = 31 := by
  revert m op; decide

/-- The two bytes of a 16-bit value put together again. -/
@[simp] theorem pairWith_high8_low8 (v : Word) : Byte.pairWith v.high8 v.low8 = v := by
  apply BitVec.eq_of_toNat_eq
  simp only [BitVec.toNat_append, BitVec.extractLsb'_toNat, BitVec.toNat_setWidth]
  have := v.isLt
  rw [← Nat.shiftLeft_add_eq_or_of_lt (Nat.mod_lt _ (by decide)), Nat.shiftRight_eq_div_pow, Nat.shiftLeft_eq]
  omega

@[simp] theorem high8_pairWith (h l : Byte) : (Byte.pairWith h l).high8 = h := by
  apply BitVec.eq_of_toNat_eq
  have := h.isLt; have := l.isLt
  simp only [BitVec.toNat_append, BitVec.extractLsb'_toNat]
  rw [← Nat.shiftLeft_add_eq_or_of_lt (by omega), Nat.shiftRight_eq_div_pow, Nat.shiftLeft_eq]
  omega

@[simp] theorem low8_pairWith (h l : Byte) : (Byte.pairWith h l).low8 = l := by
  apply BitVec.eq_of_toNat_eq
  have := h.isLt; have := l.isLt
  simp only [BitVec.toNat_append, BitVec.toNat_setWidth]
  rw [← Nat.shiftLeft_add_eq_or_of_lt (by omega), Nat.shiftLeft_eq]
  omega

/-- The numeric value of `h:l` (R10). -/
theorem toNat_pairWith (h l : Byte) : (Byte.pairWith h l).toNat = h.toNat * 256 + l.toNat := by
  have := l.isLt
  simp only [BitVec.toNat_append]
  rw [← Nat.shiftLeft_add_eq_or_of_lt (by omega), Nat.shiftLeft_eq]

@[simp] theorem toNat_zext16 (v : Byte) : v.zext16.toNat = v.toNat := by
  have := v.isLt
  simp only [BitVec.toNat_setWidth]; omega

@[simp] theorem low8_zext16 (v : Byte) : Word.low8 v.zext16 = v := by
  apply BitVec.eq_of_toNat_eq
  have := v.isLt
  simp only [BitVec.toNat_setWidth]; omega

/-- An operand's bytes are as many as its mode consumes. -/
@[simp] theorem Operand.stream_length (o : Operand) : o.stream.length = o.bytes := by cases o <;> rfl

/-- The operand a mode and two bytes make has that mode. -/
@[simp] theorem operandOf_mode (m : Mode) (x y : Byte) : (operandOf m x y).mode = m := by cases m <;> rfl

/-- The operand made of one's own mode and bytes is oneself, by the number of bytes. -/
theorem operandOf_stream (o : Operand) :
    (o.bytes = 0 ∧ o.stream = [] ∧ ∀ x y, operandOf o.mode x y = o) ∨
    (o.bytes = 1 ∧ ∃ x, o.stream = [x] ∧ ∀ y, operandOf o.mode x y = o) ∨
    (o.bytes = 2 ∧ ∃ x y, o.stream = [x, y] ∧ operandOf o.mode x y = o) := by
  cases o
  case imm8 v => exact .inr (.inl ⟨rfl, v, rfl, fun _ => rfl⟩)
  case mem8 v => exact .inr (.inl ⟨rfl, v, rfl, fun _ => rfl⟩)
  case reg v => exact .inr (.inl ⟨rfl, v, rfl, fun _ => rfl⟩)
  case imm16 v => exact .inr (.inr ⟨rfl, _, _, rfl, by simp only [operandOf, Operand.mode, pairWith_high8_low8]⟩)
  case mem16 v => exact .inr (.inr ⟨rfl, _, _, rfl, by simp only [operandOf, Operand.mode, pairWith_high8_low8]⟩)
  case pair hi lo => exact .inr (.inr ⟨rfl, hi, lo, rfl, rfl⟩)
  case carry => exact .inl ⟨rfl, rfl, fun _ _ => rfl⟩
  case pc => exact .inl ⟨rfl, rfl, fun _ _ => rfl⟩

/-- The bytes of the operand a mode and two bytes make. -/
theorem stream_operandOf (m : Mode) (x y : Byte) :
    (operandOf m x y).stream = [x, y].take m.bytes := by
  cases m <;> simp [operandOf, Operand.stream, Mode.bytes]

/-- The operand bytes of an instruction byte written as a head byte. -/
theorem operandBytes_headByte (m : Mode) (op : BitVec 5) (h : op.toNat ≠ 31) :
    operandBytes (headByte m.bits op) = operandBytesOfFields op m := by
  have : headByte m.bits op ≠ 0xFF := by
    intro e
    rw [headByte_eq_halt] at e
    rw [e.2] at h
    exact h rfl
  rw [operandBytes, if_neg this, opcodeOf_headByte, modeBitsOf_headByte, modeOf_bits]

/-- The instruction of an instruction byte written as a head byte. -/
theorem instrOf_headByte (m : Mode) (op : BitVec 5) (x y : Byte) (h : op.toNat ≠ 31) :
    instrOf (headByte m.bits op) x y = instrOfFields op m x y := by
  have : headByte m.bits op ≠ 0xFF := by
    intro e
    rw [headByte_eq_halt] at e
    rw [e.2] at h
    exact h rfl
  rw [instrOf, if_neg this, opcodeOf_headByte, modeBitsOf_headByte, modeOf_bits]

/-- Decoding a list whose first byte takes no operand byte. -/
theorem decode_zero {b : Byte} (h : operandBytes b = 0) (rest : List Byte) :
    decode (b :: rest) = .ok (instrOf b 0 0, rest) := by
  simp [decode, h]

/-- Decoding a list whose first byte takes one byte. -/
theorem decode_one {b : Byte} (h : operandBytes b = 1) (x : Byte) (rest : List Byte) :
    decode (b :: x :: rest) = .ok (instrOf b x 0, rest) := by
  simp [decode, h]

/-- Decoding a list whose first byte takes two bytes. -/
theorem decode_two {b : Byte} (h : operandBytes b = 2) (x y : Byte) (rest : List Byte) :
    decode (b :: x :: y :: rest) = .ok (instrOf b x y, rest) := by
  simp [decode, h]

/-- No instruction byte takes more than two bytes. -/
theorem operandBytes_le (b : Byte) : operandBytes b ≤ 2 := by revert b; decide

end Sys2Proof
end

