-- ==== Sys2Proof/Laws/State.lean ====
section
/-! SUPPORT. One lemma per field per named update of the state, so that no later proof unfolds a record update. -/

namespace Sys2Proof.Machine

/-! ### setReg -/

@[simp] theorem State.setReg_cart (s : State) (i : Fin 8) (v : Byte) : (s.setReg i v).cart = s.cart := rfl
@[simp] theorem State.setReg_regs (s : State) (i : Fin 8) (v : Byte) : (s.setReg i v).regs = s.regs.set i v := rfl
@[simp] theorem State.setReg_pc (s : State) (i : Fin 8) (v : Byte) : (s.setReg i v).pc = s.pc := rfl
@[simp] theorem State.setReg_sp (s : State) (i : Fin 8) (v : Byte) : (s.setReg i v).sp = s.sp := rfl
@[simp] theorem State.setReg_flags (s : State) (i : Fin 8) (v : Byte) : (s.setReg i v).flags = s.flags := rfl
@[simp] theorem State.setReg_run (s : State) (i : Fin 8) (v : Byte) : (s.setReg i v).run = s.run := rfl
@[simp] theorem State.setReg_content (s : State) (i : Fin 8) (v : Byte) : (s.setReg i v).content = s.content := rfl
@[simp] theorem State.setReg_io (s : State) (i : Fin 8) (v : Byte) : (s.setReg i v).io = s.io := rfl
@[simp] theorem State.setReg_ram (s : State) (i : Fin 8) (v : Byte) : (s.setReg i v).ram = s.ram := rfl
@[simp] theorem State.setReg_desc (s : State) (i : Fin 8) (v : Byte) : (s.setReg i v).desc = s.desc := rfl
@[simp] theorem State.setReg_stack (s : State) (i : Fin 8) (v : Byte) : (s.setReg i v).stack = s.stack := rfl
@[simp] theorem State.setReg_fb (s : State) (i : Fin 8) (v : Byte) : (s.setReg i v).fb = s.fb := rfl
@[simp] theorem State.setReg_snapshots (s : State) (i : Fin 8) (v : Byte) : (s.setReg i v).snapshots = s.snapshots := rfl
@[simp] theorem State.setReg_refreshes (s : State) (i : Fin 8) (v : Byte) : (s.setReg i v).refreshes = s.refreshes := rfl

/-! ### consume -/

@[simp] theorem State.consume_cart (s : State) (n : Nat) : (s.consume n).cart = s.cart := rfl
@[simp] theorem State.consume_regs (s : State) (n : Nat) : (s.consume n).regs = s.regs := rfl
@[simp] theorem State.consume_pc (s : State) (n : Nat) : (s.consume n).pc = s.pc + BitVec.ofNat 16 n := rfl
@[simp] theorem State.consume_sp (s : State) (n : Nat) : (s.consume n).sp = s.sp := rfl
@[simp] theorem State.consume_flags (s : State) (n : Nat) : (s.consume n).flags = s.flags := rfl
@[simp] theorem State.consume_run (s : State) (n : Nat) : (s.consume n).run = s.run := rfl
@[simp] theorem State.consume_content (s : State) (n : Nat) : (s.consume n).content = s.content := rfl
@[simp] theorem State.consume_io (s : State) (n : Nat) : (s.consume n).io = s.io := rfl
@[simp] theorem State.consume_ram (s : State) (n : Nat) : (s.consume n).ram = s.ram := rfl
@[simp] theorem State.consume_desc (s : State) (n : Nat) : (s.consume n).desc = s.desc := rfl
@[simp] theorem State.consume_stack (s : State) (n : Nat) : (s.consume n).stack = s.stack := rfl
@[simp] theorem State.consume_fb (s : State) (n : Nat) : (s.consume n).fb = s.fb := rfl
@[simp] theorem State.consume_snapshots (s : State) (n : Nat) : (s.consume n).snapshots = s.snapshots := rfl
@[simp] theorem State.consume_refreshes (s : State) (n : Nat) : (s.consume n).refreshes = s.refreshes := rfl

/-! ### trailing -/

@[simp] theorem State.trailing_cart (s : State) : (s.trailing).cart = s.cart := rfl
@[simp] theorem State.trailing_regs (s : State) : (s.trailing).regs = s.regs := rfl
@[simp] theorem State.trailing_pc (s : State) : (s.trailing).pc = s.pc + 1 := rfl
@[simp] theorem State.trailing_sp (s : State) : (s.trailing).sp = s.sp := rfl
@[simp] theorem State.trailing_flags (s : State) : (s.trailing).flags = s.flags := rfl
@[simp] theorem State.trailing_run (s : State) : (s.trailing).run = s.run := rfl
@[simp] theorem State.trailing_content (s : State) : (s.trailing).content = s.content := rfl
@[simp] theorem State.trailing_io (s : State) : (s.trailing).io = s.io := rfl
@[simp] theorem State.trailing_ram (s : State) : (s.trailing).ram = s.ram := rfl
@[simp] theorem State.trailing_desc (s : State) : (s.trailing).desc = s.desc := rfl
@[simp] theorem State.trailing_stack (s : State) : (s.trailing).stack = s.stack := rfl
@[simp] theorem State.trailing_fb (s : State) : (s.trailing).fb = s.fb := rfl
@[simp] theorem State.trailing_snapshots (s : State) : (s.trailing).snapshots = s.snapshots := rfl
@[simp] theorem State.trailing_refreshes (s : State) : (s.trailing).refreshes = s.refreshes := rfl

/-! ### setZ -/

@[simp] theorem State.setZ_cart (s : State) (b : Bool) : (s.setZ b).cart = s.cart := rfl
@[simp] theorem State.setZ_regs (s : State) (b : Bool) : (s.setZ b).regs = s.regs := rfl
@[simp] theorem State.setZ_pc (s : State) (b : Bool) : (s.setZ b).pc = s.pc := rfl
@[simp] theorem State.setZ_sp (s : State) (b : Bool) : (s.setZ b).sp = s.sp := rfl
@[simp] theorem State.setZ_flags (s : State) (b : Bool) : (s.setZ b).flags = putBit s.flags 0 b := rfl
@[simp] theorem State.setZ_run (s : State) (b : Bool) : (s.setZ b).run = s.run := rfl
@[simp] theorem State.setZ_content (s : State) (b : Bool) : (s.setZ b).content = s.content := rfl
@[simp] theorem State.setZ_io (s : State) (b : Bool) : (s.setZ b).io = s.io := rfl
@[simp] theorem State.setZ_ram (s : State) (b : Bool) : (s.setZ b).ram = s.ram := rfl
@[simp] theorem State.setZ_desc (s : State) (b : Bool) : (s.setZ b).desc = s.desc := rfl
@[simp] theorem State.setZ_stack (s : State) (b : Bool) : (s.setZ b).stack = s.stack := rfl
@[simp] theorem State.setZ_fb (s : State) (b : Bool) : (s.setZ b).fb = s.fb := rfl
@[simp] theorem State.setZ_snapshots (s : State) (b : Bool) : (s.setZ b).snapshots = s.snapshots := rfl
@[simp] theorem State.setZ_refreshes (s : State) (b : Bool) : (s.setZ b).refreshes = s.refreshes := rfl

/-! ### setC -/

@[simp] theorem State.setC_cart (s : State) (b : Bool) : (s.setC b).cart = s.cart := rfl
@[simp] theorem State.setC_regs (s : State) (b : Bool) : (s.setC b).regs = s.regs := rfl
@[simp] theorem State.setC_pc (s : State) (b : Bool) : (s.setC b).pc = s.pc := rfl
@[simp] theorem State.setC_sp (s : State) (b : Bool) : (s.setC b).sp = s.sp := rfl
@[simp] theorem State.setC_flags (s : State) (b : Bool) : (s.setC b).flags = putBit s.flags 1 b := rfl
@[simp] theorem State.setC_run (s : State) (b : Bool) : (s.setC b).run = s.run := rfl
@[simp] theorem State.setC_content (s : State) (b : Bool) : (s.setC b).content = s.content := rfl
@[simp] theorem State.setC_io (s : State) (b : Bool) : (s.setC b).io = s.io := rfl
@[simp] theorem State.setC_ram (s : State) (b : Bool) : (s.setC b).ram = s.ram := rfl
@[simp] theorem State.setC_desc (s : State) (b : Bool) : (s.setC b).desc = s.desc := rfl
@[simp] theorem State.setC_stack (s : State) (b : Bool) : (s.setC b).stack = s.stack := rfl
@[simp] theorem State.setC_fb (s : State) (b : Bool) : (s.setC b).fb = s.fb := rfl
@[simp] theorem State.setC_snapshots (s : State) (b : Bool) : (s.setC b).snapshots = s.snapshots := rfl
@[simp] theorem State.setC_refreshes (s : State) (b : Bool) : (s.setC b).refreshes = s.refreshes := rfl

/-! ### setN -/

@[simp] theorem State.setN_cart (s : State) (b : Bool) : (s.setN b).cart = s.cart := rfl
@[simp] theorem State.setN_regs (s : State) (b : Bool) : (s.setN b).regs = s.regs := rfl
@[simp] theorem State.setN_pc (s : State) (b : Bool) : (s.setN b).pc = s.pc := rfl
@[simp] theorem State.setN_sp (s : State) (b : Bool) : (s.setN b).sp = s.sp := rfl
@[simp] theorem State.setN_flags (s : State) (b : Bool) : (s.setN b).flags = putBit s.flags 2 b := rfl
@[simp] theorem State.setN_run (s : State) (b : Bool) : (s.setN b).run = s.run := rfl
@[simp] theorem State.setN_content (s : State) (b : Bool) : (s.setN b).content = s.content := rfl
@[simp] theorem State.setN_io (s : State) (b : Bool) : (s.setN b).io = s.io := rfl
@[simp] theorem State.setN_ram (s : State) (b : Bool) : (s.setN b).ram = s.ram := rfl
@[simp] theorem State.setN_desc (s : State) (b : Bool) : (s.setN b).desc = s.desc := rfl
@[simp] theorem State.setN_stack (s : State) (b : Bool) : (s.setN b).stack = s.stack := rfl
@[simp] theorem State.setN_fb (s : State) (b : Bool) : (s.setN b).fb = s.fb := rfl
@[simp] theorem State.setN_snapshots (s : State) (b : Bool) : (s.setN b).snapshots = s.snapshots := rfl
@[simp] theorem State.setN_refreshes (s : State) (b : Bool) : (s.setN b).refreshes = s.refreshes := rfl

/-! ### setZN -/

@[simp] theorem State.setZN_cart (s : State) (r : Byte) : (s.setZN r).cart = s.cart := rfl
@[simp] theorem State.setZN_regs (s : State) (r : Byte) : (s.setZN r).regs = s.regs := rfl
@[simp] theorem State.setZN_pc (s : State) (r : Byte) : (s.setZN r).pc = s.pc := rfl
@[simp] theorem State.setZN_sp (s : State) (r : Byte) : (s.setZN r).sp = s.sp := rfl
@[simp] theorem State.setZN_flags (s : State) (r : Byte) : (s.setZN r).flags = putBit (putBit s.flags 0 (decide (r = 0))) 2 (r.getLsbD 7) := rfl
@[simp] theorem State.setZN_run (s : State) (r : Byte) : (s.setZN r).run = s.run := rfl
@[simp] theorem State.setZN_content (s : State) (r : Byte) : (s.setZN r).content = s.content := rfl
@[simp] theorem State.setZN_io (s : State) (r : Byte) : (s.setZN r).io = s.io := rfl
@[simp] theorem State.setZN_ram (s : State) (r : Byte) : (s.setZN r).ram = s.ram := rfl
@[simp] theorem State.setZN_desc (s : State) (r : Byte) : (s.setZN r).desc = s.desc := rfl
@[simp] theorem State.setZN_stack (s : State) (r : Byte) : (s.setZN r).stack = s.stack := rfl
@[simp] theorem State.setZN_fb (s : State) (r : Byte) : (s.setZN r).fb = s.fb := rfl
@[simp] theorem State.setZN_snapshots (s : State) (r : Byte) : (s.setZN r).snapshots = s.snapshots := rfl
@[simp] theorem State.setZN_refreshes (s : State) (r : Byte) : (s.setZN r).refreshes = s.refreshes := rfl

/-! ### setResult -/

@[simp] theorem State.setResult_cart (s : State) (r : Byte) : (s.setResult r).cart = s.cart := rfl
@[simp] theorem State.setResult_regs (s : State) (r : Byte) : (s.setResult r).regs = s.regs.set 0 r := rfl
@[simp] theorem State.setResult_pc (s : State) (r : Byte) : (s.setResult r).pc = s.pc := rfl
@[simp] theorem State.setResult_sp (s : State) (r : Byte) : (s.setResult r).sp = s.sp := rfl
@[simp] theorem State.setResult_flags (s : State) (r : Byte) : (s.setResult r).flags = putBit (putBit s.flags 0 (decide (r = 0))) 2 (r.getLsbD 7) := rfl
@[simp] theorem State.setResult_run (s : State) (r : Byte) : (s.setResult r).run = s.run := rfl
@[simp] theorem State.setResult_content (s : State) (r : Byte) : (s.setResult r).content = s.content := rfl
@[simp] theorem State.setResult_io (s : State) (r : Byte) : (s.setResult r).io = s.io := rfl
@[simp] theorem State.setResult_ram (s : State) (r : Byte) : (s.setResult r).ram = s.ram := rfl
@[simp] theorem State.setResult_desc (s : State) (r : Byte) : (s.setResult r).desc = s.desc := rfl
@[simp] theorem State.setResult_stack (s : State) (r : Byte) : (s.setResult r).stack = s.stack := rfl
@[simp] theorem State.setResult_fb (s : State) (r : Byte) : (s.setResult r).fb = s.fb := rfl
@[simp] theorem State.setResult_snapshots (s : State) (r : Byte) : (s.setResult r).snapshots = s.snapshots := rfl
@[simp] theorem State.setResult_refreshes (s : State) (r : Byte) : (s.setResult r).refreshes = s.refreshes := rfl

/-! ### spUp -/

@[simp] theorem State.spUp_cart (s : State) : (s.spUp).cart = s.cart := rfl
@[simp] theorem State.spUp_regs (s : State) : (s.spUp).regs = s.regs := rfl
@[simp] theorem State.spUp_pc (s : State) : (s.spUp).pc = s.pc := rfl
@[simp] theorem State.spUp_sp (s : State) : (s.spUp).sp = s.sp + 1 := rfl
@[simp] theorem State.spUp_flags (s : State) : (s.spUp).flags = s.flags := rfl
@[simp] theorem State.spUp_run (s : State) : (s.spUp).run = s.run := rfl
@[simp] theorem State.spUp_content (s : State) : (s.spUp).content = s.content := rfl
@[simp] theorem State.spUp_io (s : State) : (s.spUp).io = s.io := rfl
@[simp] theorem State.spUp_ram (s : State) : (s.spUp).ram = s.ram := rfl
@[simp] theorem State.spUp_desc (s : State) : (s.spUp).desc = s.desc := rfl
@[simp] theorem State.spUp_stack (s : State) : (s.spUp).stack = s.stack := rfl
@[simp] theorem State.spUp_fb (s : State) : (s.spUp).fb = s.fb := rfl
@[simp] theorem State.spUp_snapshots (s : State) : (s.spUp).snapshots = s.snapshots := rfl
@[simp] theorem State.spUp_refreshes (s : State) : (s.spUp).refreshes = s.refreshes := rfl

/-! ### spDown -/

@[simp] theorem State.spDown_cart (s : State) : (s.spDown).cart = s.cart := rfl
@[simp] theorem State.spDown_regs (s : State) : (s.spDown).regs = s.regs := rfl
@[simp] theorem State.spDown_pc (s : State) : (s.spDown).pc = s.pc := rfl
@[simp] theorem State.spDown_sp (s : State) : (s.spDown).sp = s.sp - 1 := rfl
@[simp] theorem State.spDown_flags (s : State) : (s.spDown).flags = s.flags := rfl
@[simp] theorem State.spDown_run (s : State) : (s.spDown).run = s.run := rfl
@[simp] theorem State.spDown_content (s : State) : (s.spDown).content = s.content := rfl
@[simp] theorem State.spDown_io (s : State) : (s.spDown).io = s.io := rfl
@[simp] theorem State.spDown_ram (s : State) : (s.spDown).ram = s.ram := rfl
@[simp] theorem State.spDown_desc (s : State) : (s.spDown).desc = s.desc := rfl
@[simp] theorem State.spDown_stack (s : State) : (s.spDown).stack = s.stack := rfl
@[simp] theorem State.spDown_fb (s : State) : (s.spDown).fb = s.fb := rfl
@[simp] theorem State.spDown_snapshots (s : State) : (s.spDown).snapshots = s.snapshots := rfl
@[simp] theorem State.spDown_refreshes (s : State) : (s.spDown).refreshes = s.refreshes := rfl

/-! ### beginRefresh -/

@[simp] theorem beginRefresh_cart (s : State) : (beginRefresh s).cart = s.cart := rfl
@[simp] theorem beginRefresh_regs (s : State) : (beginRefresh s).regs = s.regs := rfl
@[simp] theorem beginRefresh_pc (s : State) : (beginRefresh s).pc = s.pc := rfl
@[simp] theorem beginRefresh_sp (s : State) : (beginRefresh s).sp = s.sp := rfl
@[simp] theorem beginRefresh_flags (s : State) : (beginRefresh s).flags = s.flags := rfl
@[simp] theorem beginRefresh_run (s : State) : (beginRefresh s).run = s.run := rfl
@[simp] theorem beginRefresh_content (s : State) : (beginRefresh s).content = s.content := rfl
@[simp] theorem beginRefresh_io (s : State) : (beginRefresh s).io = s.io.write 0x00 0 := rfl
@[simp] theorem beginRefresh_ram (s : State) : (beginRefresh s).ram = s.ram := rfl
@[simp] theorem beginRefresh_desc (s : State) : (beginRefresh s).desc = s.desc := rfl
@[simp] theorem beginRefresh_stack (s : State) : (beginRefresh s).stack = s.stack := rfl
@[simp] theorem beginRefresh_fb (s : State) : (beginRefresh s).fb = [] := rfl
@[simp] theorem beginRefresh_snapshots (s : State) : (beginRefresh s).snapshots = s.snapshots := rfl
@[simp] theorem beginRefresh_refreshes (s : State) : (beginRefresh s).refreshes = s.refreshes := rfl

/-! ### endRefresh -/

@[simp] theorem endRefresh_cart (s : State) (fb : Memory) : (endRefresh s fb).cart = s.cart := rfl
@[simp] theorem endRefresh_regs (s : State) (fb : Memory) : (endRefresh s fb).regs = s.regs := rfl
@[simp] theorem endRefresh_pc (s : State) (fb : Memory) : (endRefresh s fb).pc = s.pc := rfl
@[simp] theorem endRefresh_sp (s : State) (fb : Memory) : (endRefresh s fb).sp = s.sp := rfl
@[simp] theorem endRefresh_flags (s : State) (fb : Memory) : (endRefresh s fb).flags = s.flags := rfl
@[simp] theorem endRefresh_run (s : State) (fb : Memory) : (endRefresh s fb).run = s.run := rfl
@[simp] theorem endRefresh_content (s : State) (fb : Memory) : (endRefresh s fb).content = s.content := rfl
@[simp] theorem endRefresh_io (s : State) (fb : Memory) : (endRefresh s fb).io = s.io.write 0x05 (nextSnapshot s) := rfl
@[simp] theorem endRefresh_ram (s : State) (fb : Memory) : (endRefresh s fb).ram = s.ram := rfl
@[simp] theorem endRefresh_desc (s : State) (fb : Memory) : (endRefresh s fb).desc = s.desc := rfl
@[simp] theorem endRefresh_stack (s : State) (fb : Memory) : (endRefresh s fb).stack = s.stack := rfl
@[simp] theorem endRefresh_fb (s : State) (fb : Memory) : (endRefresh s fb).fb = fb := rfl
@[simp] theorem endRefresh_snapshots (s : State) (fb : Memory) : (endRefresh s fb).snapshots = s.snapshots.tail := rfl
@[simp] theorem endRefresh_refreshes (s : State) (fb : Memory) : (endRefresh s fb).refreshes = s.refreshes + 1 := rfl

/-! ### Registers and flags read back -/

@[simp] theorem State.reg_setReg_same (s : State) (i : Fin 8) (v : Byte) : (s.setReg i v).reg i = v := by
  simp [State.reg]

theorem State.reg_setReg_other (s : State) (i j : Fin 8) (v : Byte) (h : j ≠ i) : (s.setReg i v).reg j = s.reg j := by
  have h' : (i : Nat) ≠ (j : Nat) := fun e => h (Fin.ext e.symm)
  simp [State.reg, h']

theorem State.reg_eq_of_regs (s t : State) (h : t.regs = s.regs) (i : Fin 8) : t.reg i = s.reg i := by
  simp [State.reg, h]

end Sys2Proof.Machine
end

