-- ==== Sys2Proof/Laws/Memory.lean ====
section
/-! SUPPORT. The laws of the backing stores and of the address space: read after write, the canonical form, what one access can
do. -/

namespace Sys2Proof.Machine

/-! ### One backing store -/

@[simp] theorem Memory.read_nil (k : Nat) : Memory.read [] k = unlistedByte := rfl

/-- A store whose indices start at `lo` reads as unlisted below `lo`. -/
theorem Memory.read_below {m : Memory} {lo k : Nat} (h : Memory.wfFrom lo m = true) (hk : k < lo) :
    m.read k = unlistedByte := by
  induction m generalizing lo with
  | nil => rfl
  | cons c m ih =>
    obtain ⟨j, v⟩ := c
    simp only [Memory.wfFrom, Bool.and_eq_true, decide_eq_true_eq] at h
    have hj : k ≠ j := by omega
    simpa only [Memory.read, if_neg hj] using ih h.2 (by omega)

/-- A canonical form from `lo` on is one from any lower index on. -/
theorem Memory.wfFrom_mono {m : Memory} {lo lo' : Nat} (h : Memory.wfFrom lo m = true) (hl : lo' ≤ lo) :
    Memory.wfFrom lo' m = true := by
  cases m with
  | nil => rfl
  | cons c m =>
    simp only [Memory.wfFrom, Bool.and_eq_true, decide_eq_true_eq] at h ⊢
    exact ⟨⟨by omega, h.1.2⟩, h.2⟩

/-- A write at `lo` or above keeps the canonical form from `lo` on. -/
theorem Memory.write_wfFrom {m : Memory} {lo k : Nat} (v : Byte) (h : Memory.wfFrom lo m = true) (hk : lo ≤ k) :
    Memory.wfFrom lo (m.write k v) = true := by
  induction m generalizing lo with
  | nil =>
    by_cases hv : v = unlistedByte <;> simp [Memory.write, Memory.wfFrom, hv, hk]
  | cons c m ih =>
    obtain ⟨j, w⟩ := c
    simp only [Memory.wfFrom, Bool.and_eq_true, decide_eq_true_eq] at h
    obtain ⟨⟨hj, hw⟩, hm⟩ := h
    rcases Nat.lt_trichotomy k j with hkj | hkj | hkj
    · by_cases hv : v = unlistedByte
      · simp [Memory.write, Memory.wfFrom, hkj, hv, hj, hw, hm]
      · simp [Memory.write, Memory.wfFrom, hkj, hv, hk, hw, hm, Nat.succ_le_of_lt hkj]
    · subst hkj
      by_cases hv : v = unlistedByte
      · simpa [Memory.write, hv] using Memory.wfFrom_mono hm (by omega)
      · simp [Memory.write, Memory.wfFrom, hv, hk, hm]
    · have h1 : ¬ k < j := by omega
      have h2 : k ≠ j := by omega
      simp [Memory.write, Memory.wfFrom, h1, h2, hj, hw, ih hm (by omega)]

/-- A write keeps the canonical form. -/
theorem Memory.write_wf {m : Memory} (k : Nat) (v : Byte) (h : m.wf = true) : (m.write k v).wf = true :=
  Memory.write_wfFrom v h (Nat.zero_le k)

/-- Writing a list of bytes keeps the canonical form. -/
theorem Memory.writeAll_wf {m : Memory} (k : Nat) (vs : List Byte) (h : m.wf = true) : (m.writeAll k vs).wf = true := by
  induction vs generalizing m k with
  | nil => exact h
  | cons v vs ih => exact ih (k + 1) (Memory.write_wf k v h)

/-- A write inside a store of `n` bytes keeps it one. -/
theorem Memory.write_within {m : Memory} {n k : Nat} (v : Byte) (h : m.within n = true) (hk : k < n) :
    (m.write k v).within n = true := by
  induction m with
  | nil => by_cases hv : v = unlistedByte <;> simp [Memory.write, Memory.within, hv, hk]
  | cons c m ih =>
    obtain ⟨j, w⟩ := c
    simp only [Memory.within, List.all_cons, Bool.and_eq_true, decide_eq_true_eq] at h ih ⊢
    unfold Memory.write
    split
    · split <;> simp [h.1, hk] <;> simpa using h.2
    · split
      · split
        · exact h.2
        · simp only [List.all_cons, Bool.and_eq_true, decide_eq_true_eq]; exact h
      · simp only [List.all_cons, Bool.and_eq_true, decide_eq_true_eq]; exact ⟨h.1, ih h.2⟩

/-- A write of a palette index keeps the framebuffer one of palette indices. -/
theorem Memory.write_palette {m : Memory} (k : Nat) {v : Byte} (h : m.palette = true) (hv : v.toNat < 8) :
    (m.write k v).palette = true := by
  induction m with
  | nil => by_cases hu : v = unlistedByte <;> simp [Memory.write, Memory.palette, hu, hv]
  | cons c m ih =>
    obtain ⟨j, w⟩ := c
    simp only [Memory.palette, List.all_cons, Bool.and_eq_true, decide_eq_true_eq] at h ih ⊢
    unfold Memory.write
    split
    · split
      · simpa only [List.all_cons, Bool.and_eq_true, decide_eq_true_eq] using h
      · simpa only [List.all_cons, Bool.and_eq_true, decide_eq_true_eq] using ⟨hv, h⟩
    · split
      · split
        · exact h.2
        · simp only [List.all_cons, Bool.and_eq_true, decide_eq_true_eq]; exact ⟨hv, h.2⟩
      · simp only [List.all_cons, Bool.and_eq_true, decide_eq_true_eq]; exact ⟨h.1, ih h.2⟩

/-- Read after write, at the index written, in a canonical store. -/
theorem Memory.read_write_same {m : Memory} (k : Nat) (v : Byte) (h : m.wf = true) : (m.write k v).read k = v := by
  suffices H : ∀ lo, Memory.wfFrom lo m = true → (m.write k v).read k = v from H 0 h
  intro lo h
  clear * - h
  induction m generalizing lo with
  | nil => by_cases hv : v = unlistedByte <;> simp [Memory.write, Memory.read, hv]
  | cons c m ih =>
    obtain ⟨j, w⟩ := c
    simp only [Memory.wfFrom, Bool.and_eq_true, decide_eq_true_eq] at h
    rcases Nat.lt_trichotomy k j with hkj | hkj | hkj
    · have h2 : k ≠ j := by omega
      by_cases hv : v = unlistedByte
      · simpa [Memory.write, Memory.read, hkj, hv, h2] using Memory.read_below h.2 (by omega)
      · simp [Memory.write, Memory.read, hkj, hv]
    · subst hkj
      by_cases hv : v = unlistedByte
      · simpa [Memory.write, hv] using Memory.read_below h.2 (by omega)
      · simp [Memory.write, Memory.read, hv]
    · have h1 : ¬ k < j := by omega
      have h2 : k ≠ j := by omega
      simpa [Memory.write, Memory.read, h1, h2] using ih _ h.2

/-- A write leaves every other index alone. -/
theorem Memory.read_write_other (m : Memory) {k l : Nat} (v : Byte) (h : l ≠ k) : (m.write k v).read l = m.read l := by
  induction m with
  | nil => by_cases hv : v = unlistedByte <;> simp [Memory.write, Memory.read, hv, h]
  | cons c m ih =>
    obtain ⟨j, w⟩ := c
    unfold Memory.write
    split
    · split
      · rfl
      · simp [Memory.read, h]
    · split
      · rename_i h1 h2
        subst h2
        split <;> simp [Memory.read, h]
      · simp only [Memory.read]
        split
        · rfl
        · exact ih

/-- Canonical stores that read alike are equal. -/
theorem Memory.ext {m n : Memory} (hm : m.wf = true) (hn : n.wf = true) (h : ∀ k, m.read k = n.read k) : m = n := by
  suffices H : ∀ lo, Memory.wfFrom lo m = true → Memory.wfFrom lo n = true → m = n from H 0 hm hn
  intro lo hm hn
  clear * - hm hn h
  induction m generalizing n lo with
  | nil =>
    cases n with
    | nil => rfl
    | cons d n =>
      obtain ⟨j, w⟩ := d
      simp only [Memory.wfFrom, Bool.and_eq_true, decide_eq_true_eq] at hn
      have := h j
      simp only [Memory.read, if_true] at this
      exact absurd this.symm hn.1.2
  | cons c m ih =>
    obtain ⟨i, v⟩ := c
    simp only [Memory.wfFrom, Bool.and_eq_true, decide_eq_true_eq] at hm
    cases n with
    | nil =>
      have := h i
      simp only [Memory.read, if_true] at this
      exact absurd this hm.1.2
    | cons d n =>
      obtain ⟨j, w⟩ := d
      simp only [Memory.wfFrom, Bool.and_eq_true, decide_eq_true_eq] at hn
      have hij : i = j := by
        rcases Nat.lt_trichotomy i j with hlt | heq | hlt
        · have h1 := h i
          simp only [Memory.read, if_true, if_neg (by omega : i ≠ j)] at h1
          rw [Memory.read_below hn.2 (by omega)] at h1
          exact absurd h1 hm.1.2
        · exact heq
        · have h1 := h j
          simp only [Memory.read, if_true, if_neg (by omega : j ≠ i)] at h1
          rw [Memory.read_below hm.2 (by omega)] at h1
          exact absurd h1.symm hn.1.2
      subst hij
      have hvw := h i
      simp only [Memory.read, if_true] at hvw
      have hmn : m = n := by
        refine ih (fun k => ?_) (i + 1) hm.2 hn.2
        by_cases hk : k = i
        · subst hk
          rw [Memory.read_below hm.2 (by omega), Memory.read_below hn.2 (by omega)]
        · have := h k
          simpa only [Memory.read, if_neg hk] using this
      rw [hvw, hmn]

/-- A store reads a palette index everywhere when every listed byte is one. -/
theorem Memory.read_palette {m : Memory} (h : m.palette = true) (k : Nat) : (m.read k).toNat < 8 := by
  induction m with
  | nil => simp [Memory.read, unlistedByte]
  | cons c m ih =>
    obtain ⟨j, w⟩ := c
    simp only [Memory.palette, List.all_cons, Bool.and_eq_true, decide_eq_true_eq] at h ih
    unfold Memory.read
    split
    · exact h.1
    · exact ih h.2

/-! ### The address space -/

/-- The regions as ranges of addresses (R38), and no address in the gap (R46). -/
theorem regionOf_range (a : Word) :
    match regionOf a with
    | .fixedBank => a.toNat ≤ 0x3FFF
    | .switchBank => 0x4000 ≤ a.toNat ∧ a.toNat ≤ 0x7FFF
    | .io => 0x8000 ≤ a.toNat ∧ a.toNat ≤ 0x80FF
    | .ram => 0x8100 ≤ a.toNat ∧ a.toNat ≤ 0xA0FF
    | .video => 0xA100 ≤ a.toNat ∧ a.toNat ≤ 0xD0FF
    | .desc => 0xD100 ≤ a.toNat ∧ a.toNat ≤ 0xD36A
    | .stack => 0xD36B ≤ a.toNat ∧ a.toNat ≤ 0xFFFF
    | .gap => False := by
  have := a.isLt
  unfold regionOf
  by_cases h1 : a.toNat ≤ 0x3FFF
  · simp [h1]
  by_cases h2 : a.toNat ≤ 0x7FFF
  · simp [h1, h2]; omega
  by_cases h3 : a.toNat ≤ 0x80FF
  · simp [h1, h2, h3]; omega
  by_cases h4 : a.toNat ≤ 0xA0FF
  · simp [h1, h2, h3, h4]; omega
  by_cases h5 : a.toNat ≤ 0xD0FF
  · simp [h1, h2, h3, h4, h5]; omega
  by_cases h6 : a.toNat ≤ 0xD36A
  · simp [h1, h2, h3, h4, h5, h6]; omega
  by_cases h7 : a.toNat ≤ 0xFFFF
  · simp [h1, h2, h3, h4, h5, h6, h7]; omega
  · omega

/-- The region of an address, from the range it lies in. -/
theorem regionOf_of_range {a : Word} {r : Region}
    (h : match r with
      | .fixedBank => a.toNat ≤ 0x3FFF
      | .switchBank => 0x4000 ≤ a.toNat ∧ a.toNat ≤ 0x7FFF
      | .io => 0x8000 ≤ a.toNat ∧ a.toNat ≤ 0x80FF
      | .ram => 0x8100 ≤ a.toNat ∧ a.toNat ≤ 0xA0FF
      | .video => 0xA100 ≤ a.toNat ∧ a.toNat ≤ 0xD0FF
      | .desc => 0xD100 ≤ a.toNat ∧ a.toNat ≤ 0xD36A
      | .stack => 0xD36B ≤ a.toNat ∧ a.toNat ≤ 0xFFFF
      | .gap => False) : regionOf a = r := by
  have hr := regionOf_range a
  cases ha : regionOf a <;> simp only [ha] at hr <;> cases r <;> simp only at h <;> first | rfl | omega

/-- What a content read can answer. -/
theorem contentAt_cases (s : State) (k : Nat) (a : Word) :
    (s.cart.contentLength ≤ k ∧ contentAt s k a = .error (.contentOutOfRange a k)) ∨
    (k < s.cart.contentLength ∧ contentAt s k a = .ok (s.content.read k)) := by
  unfold contentAt
  split
  · exact .inl ⟨by omega, rfl⟩
  · exact .inr ⟨by omega, rfl⟩

/-- A read depends on the header's bank counts and the stores alone. -/
theorem memRead_congr {s t : State} (hc : t.cart = s.cart) (h1 : t.content = s.content) (h2 : t.io = s.io)
    (h3 : t.ram = s.ram) (h4 : t.desc = s.desc) (h5 : t.stack = s.stack) (a : Word) : memRead t a = memRead s a := by
  simp only [memRead, contentAt, hc, h1, h2, h3, h4, h5]

/-- Everything a write can do: it changes one store, or raises one of three faults. -/
theorem memWrite_cases {s t : State} {a : Word} {v : Byte} (h : memWrite s a v = .ok t) :
    (∃ k, backingOf a = .content k ∧ k < s.cart.contentLength ∧ regionOf a ≠ .video ∧
      t = { s with content := s.content.write k v }) ∨
    (∃ k, backingOf a = .io k ∧ k < 256 ∧ t = { s with io := s.io.write k v }) ∨
    (∃ k, backingOf a = .ram k ∧ k < 8192 ∧ t = { s with ram := s.ram.write k v }) ∨
    (∃ k, backingOf a = .desc k ∧ k < 619 ∧ t = { s with desc := s.desc.write k v }) ∨
    (∃ k, backingOf a = .stack k ∧ 0x16B ≤ k ∧ k < 11776 ∧ t = { s with stack := s.stack.write k v }) := by
  have hr := regionOf_range a
  unfold memWrite at h
  unfold backingOf
  cases hreg : regionOf a <;> simp only [hreg, contentSet] at h hr ⊢
  case fixedBank =>
    split at h <;> simp only [Except.ok.injEq, reduceCtorEq] at h
    exact .inl ⟨_, rfl, by omega, by simp, h.symm⟩
  case switchBank =>
    split at h
    · simp at h
    · split at h <;> simp only [Except.ok.injEq, reduceCtorEq] at h
      exact .inl ⟨_, rfl, by omega, by simp, h.symm⟩
  case io => exact .inr (.inl ⟨_, rfl, Nat.mod_lt _ (by decide), by simpa using h.symm⟩)
  case ram => exact .inr (.inr (.inl ⟨_, rfl, by omega, by simpa using h.symm⟩))
  case video => simp at h
  case desc => exact .inr (.inr (.inr (.inl ⟨_, rfl, by omega, by simpa using h.symm⟩)))
  case stack => exact .inr (.inr (.inr (.inr ⟨_, rfl, by omega, by omega, by simpa using h.symm⟩)))

/-- A write keeps everything that is not a store. -/
theorem memWrite_frame {s t : State} {a : Word} {v : Byte} (h : memWrite s a v = .ok t) :
    t.cart = s.cart ∧ t.regs = s.regs ∧ t.pc = s.pc ∧ t.sp = s.sp ∧ t.flags = s.flags ∧ t.run = s.run ∧ t.fb = s.fb ∧
    t.snapshots = s.snapshots ∧ t.refreshes = s.refreshes := by
  rcases memWrite_cases h with ⟨_, _, _, _, rfl⟩ | ⟨_, _, _, rfl⟩ | ⟨_, _, _, rfl⟩ | ⟨_, _, _, rfl⟩ | ⟨_, _, _, _, rfl⟩ <;>
    simp

end Sys2Proof.Machine
end

