-- ==== Sys2Proof/Laws/Exec.lean ====
section
/-! SUPPORT. What each shared operation of the machine can do, said once: flags, operands, faults, the end of an instruction; and
one inversion lemma per instruction. -/

namespace Sys2Proof.Machine

/-! ### Flags -/

/-- Writing one flag bit: that bit is the one given, every other is kept. -/
@[simp] theorem getLsbD_putBit (f : Byte) (i : Nat) (b : Bool) (k : Nat) (hi : i < 8) :
    (putBit f i b).getLsbD k = if k = i then b else f.getLsbD k := by
  unfold putBit
  by_cases hk : k < 8
  · have h1 : (1#8 <<< i).getLsbD k = decide (k = i) := by
      rw [BitVec.getLsbD_shiftLeft]
      by_cases hki : k = i
      · subst hki; simp [hk]
      · by_cases hlt : k < i
        · simp [hk, hki, hlt]
        · have : k - i ≠ 0 := by omega
          simp [hk, hki, hlt, this]
    by_cases hki : k = i
    · subst hki
      cases b <;> simp [hk]
    · have h2 : (1#8 <<< i).getLsbD k = false := by simpa [hki] using h1
      cases b
      · simp only [Bool.false_eq_true, if_false, BitVec.getLsbD_and, BitVec.getLsbD_not, h2, hk, if_neg hki]
        simp
      · simp only [if_true, BitVec.getLsbD_or, h2, if_neg hki, Bool.or_false]
  · have hki : k ≠ i := by omega
    rw [BitVec.getLsbD_of_ge _ _ (by omega), if_neg hki, BitVec.getLsbD_of_ge _ _ (by omega)]

/-- Writing a flag bit below 3 keeps FLAGS bits 3..7 at 0. -/
theorem putBit_lt_eight {f : Byte} {i : Nat} (b : Bool) (hi : i < 3) (h : f.toNat < 8) : (putBit f i b).toNat < 8 := by
  have key : ∀ f : Byte, f.toNat < 8 → ∀ i : Fin 3, ∀ b : Bool, (putBit f i b).toNat < 8 := by decide +kernel
  exact key f h ⟨i, hi⟩ b

/-- The flags after an ALU result: Z and N from it, every other bit as before. -/
theorem setResult_flags (s : State) (r : Byte) :
    (s.setResult r).flags.getLsbD 0 = decide (r = 0) ∧ (s.setResult r).flags.getLsbD 2 = r.getLsbD 7 ∧
    ∀ k, k ≠ 0 → k ≠ 2 → (s.setResult r).flags.getLsbD k = s.flags.getLsbD k := by
  refine ⟨?_, (getLsbD_putBit _ _ _ _ (by decide)).trans rfl, fun k h0 h2 => ?_⟩
  · exact (getLsbD_putBit _ _ _ _ (by decide)).trans ((getLsbD_putBit _ _ _ _ (by decide)).trans rfl)
  · refine (getLsbD_putBit _ _ _ _ (by decide)).trans ?_
    rw [if_neg h2]
    exact (getLsbD_putBit _ _ _ _ (by decide)).trans (if_neg h0)

/-! ### Operands -/

/-- An index check passes exactly below 8. -/
theorem checkIndex_of_lt {v : Word} (h : v.toNat < 8) : checkIndex v = .ok ⟨v.toNat, h⟩ := by
  simp [checkIndex, h]

theorem checkIndex_of_ge {v : Word} (h : 8 ≤ v.toNat) : checkIndex v = .error (.badRegisterIndex v) := by
  have : ¬ v.toNat < 8 := by omega
  simp [checkIndex, this]

/-- Resolving an operand does not look at the sp. -/
@[simp] theorem resolve_spUp (s : State) (o : Operand) : resolve s.spUp o = resolve s o := by
  cases o <;> rfl

/-- Every way an operand's resolution can fail: after one or two of its bytes, in a data read or an index check. -/
theorem resolve_error {s : State} {o : Operand} {f : Fault} (h : resolve s o = .error f) :
    ∃ c n, f = .cpu c s.pc (s.pc + BitVec.ofNat 16 n) ∧ 1 ≤ n ∧ n ≤ o.bytes ∧
      ((∃ a, memRead s a = .error c) ∨ ∃ v, c = .badRegisterIndex v) := by
  have hidx : ∀ {v : Word} {c : FaultCause}, checkIndex v = .error c → c = .badRegisterIndex v := by
    intro v c hc
    unfold checkIndex at hc
    split at hc
    · simp at hc
    · simpa using hc.symm
  cases o
  case imm8 v => simp [resolve] at h
  case mem8 a =>
    simp only [resolve, readOperand, afterBytes] at h
    cases hm : memRead s a.zext16 with
    | ok v => simp [hm] at h
    | error c =>
      simp only [hm, Except.error.injEq] at h
      exact ⟨c, 1, h.symm, by decide, by simp [Operand.bytes, Operand.mode, Mode.bytes], .inl ⟨_, hm⟩⟩
  case reg i =>
    simp only [resolve, regOperand, afterBytes] at h
    cases hm : checkIndex i.zext16 with
    | ok v => simp [hm] at h
    | error c =>
      simp only [hm, Except.error.injEq] at h
      exact ⟨c, 1, h.symm, by decide, by simp [Operand.bytes, Operand.mode, Mode.bytes], .inr ⟨_, hidx hm⟩⟩
  case imm16 v => simp [resolve] at h
  case mem16 a =>
    simp only [resolve, readOperand, afterBytes] at h
    cases hm : memRead s a with
    | ok v => simp [hm] at h
    | error c =>
      simp only [hm, Except.error.injEq] at h
      exact ⟨c, 2, h.symm, by decide, by simp [Operand.bytes, Operand.mode, Mode.bytes], .inl ⟨_, hm⟩⟩
  case pair hi lo =>
    simp only [resolve, pairOperand, afterBytes] at h
    cases hm : checkIndex hi.zext16 with
    | error c =>
      simp only [hm, Except.error.injEq] at h
      exact ⟨c, 1, h.symm, by decide, by simp [Operand.bytes, Operand.mode, Mode.bytes], .inr ⟨_, hidx hm⟩⟩
    | ok v =>
      cases hl : checkIndex lo.zext16 with
      | error c =>
        simp only [hm, hl, Except.error.injEq] at h
        exact ⟨c, 2, h.symm, by decide, by simp [Operand.bytes, Operand.mode, Mode.bytes], .inr ⟨_, hidx hl⟩⟩
      | ok w => simp [hm, hl] at h
  case carry => simp [resolve] at h
  case pc => simp [resolve] at h

/-! ### The shared shape of an instruction -/

theorem withOperand_ok {s : State} {o : Operand} {v : Word} (h : resolve s o = .ok v) (k : Word → Result) :
    withOperand s o k = k v := by
  simp [withOperand, h]

theorem withOperand_error {s : State} {o : Operand} {f : Fault} (h : resolve s o = .error f) (k : Word → Result) :
    withOperand s o k = .fault f := by
  simp [withOperand, h]

/-- An instruction with an operand answers a next state only if the operand resolves. -/
theorem withOperand_next {s t : State} {o : Operand} {k : Word → Result} (h : withOperand s o k = .next t) :
    ∃ v, resolve s o = .ok v ∧ k v = .next t := by
  cases hr : resolve s o with
  | ok v => exact ⟨v, rfl, by rwa [withOperand_ok hr] at h⟩
  | error f => rw [withOperand_error hr] at h; cases h

theorem attempt_ok {α : Type} (s : State) (n : Nat) (v : α) (k : α → Result) : attempt s n (.ok v) k = k v := rfl

theorem attempt_error {α : Type} (s : State) (n : Nat) (c : FaultCause) (k : α → Result) :
    attempt s n (.error c) k = .fault (.cpu c s.pc (s.pc + BitVec.ofNat 16 n)) := rfl

/-- An access or check is passed only with a value. -/
theorem attempt_next {α : Type} {s t : State} {n : Nat} {r : Except FaultCause α} {k : α → Result}
    (h : attempt s n r k = .next t) : ∃ v, r = .ok v ∧ k v = .next t := by
  cases r with
  | ok v => exact ⟨v, rfl, h⟩
  | error c => cases h

/-- The operand bytes and the trailing advance, added up. -/
theorem pc_after (p : Word) (n : Nat) : p + BitVec.ofNat 16 n + 1#16 = p + BitVec.ofNat 16 (1 + n) := by
  rw [BitVec.add_assoc, Nat.add_comm 1 n, BitVec.ofNat_add]

/-- The end of an instruction, written as one record update. -/
theorem finish_eq (n : Nat) (t : State) : finish n t = .next { t with pc := t.pc + BitVec.ofNat 16 (1 + n) } := by
  simp [finish, State.consume, State.trailing, pc_after]

/-! ### One inversion lemma per instruction: what a next state must be -/

theorem execNoop_next {m : Mode} {s t : State} (h : execNoop m s = .next t) : t = { s with pc := s.pc + 1 } := by
  simpa [execNoop, finish, State.consume, State.trailing] using h.symm

theorem execLda_next {o : Operand} {s t : State} (h : execLda o s = .next t) :
    ∃ v, resolve s o = .ok v ∧
      t = { s.setReg 0 v.low8 with pc := s.pc + BitVec.ofNat 16 (1 + o.bytes) } := by
  obtain ⟨v, hv, h⟩ := withOperand_next h
  rw [finish_eq] at h
  exact ⟨v, hv, by simpa using h.symm⟩

theorem execSam_next {o : Operand} {s t : State} (h : execSam o s = .next t) :
    ∃ a u, resolve s o = .ok a ∧ memWrite s a (s.reg 0) = .ok u ∧
      t = { u with pc := s.pc + BitVec.ofNat 16 (1 + o.bytes) } := by
  obtain ⟨a, ha, h⟩ := withOperand_next h
  obtain ⟨u, hu, h⟩ := attempt_next h
  rw [finish_eq, (memWrite_frame hu).2.2.1] at h
  exact ⟨a, u, ha, hu, by simpa using h.symm⟩

theorem execSar_next {o : Operand} {s t : State} (h : execSar o s = .next t) :
    ∃ (v : Word) (hv : v.toNat < 8), resolve s o = .ok v ∧
      t = { s.setReg ⟨v.toNat, hv⟩ (s.reg 0) with pc := s.pc + BitVec.ofNat 16 (1 + o.bytes) } := by
  obtain ⟨v, hv, h⟩ := withOperand_next h
  obtain ⟨i, hi, h⟩ := attempt_next h
  rw [finish_eq] at h
  by_cases hlt : v.toNat < 8
  · rw [checkIndex_of_lt hlt] at hi
    cases hi
    exact ⟨v, hlt, hv, by simpa using h.symm⟩
  · rw [checkIndex_of_ge (by omega)] at hi
    cases hi

/-- What a jump can do. -/
theorem jumpIf_eq (taken : Bool) (t : Byte) (s : State) :
    jumpIf taken t s = .next { s with pc := if taken then t.zext16 else s.pc + 2 } := by
  cases taken
  · have : s.pc + 1#16 + 1#16 = s.pc + 2#16 := pc_after s.pc 1
    simp [jumpIf, finish, State.consume, State.trailing, this]
  · simp [jumpIf, State.trailing]

theorem execPsh_next {o : Operand} {s t : State} (h : execPsh o s = .next t) :
    ∃ v u, resolve s o = .ok v ∧ memWrite s s.sp v.low8 = .ok u ∧
      t = { u with sp := s.sp - 1, pc := s.pc + BitVec.ofNat 16 (1 + o.bytes) } := by
  obtain ⟨v, hv, h⟩ := withOperand_next h
  obtain ⟨u, hu, h⟩ := attempt_next h
  have hf := memWrite_frame hu
  rw [finish_eq] at h
  exact ⟨v, u, hv, hu, by simpa [State.spDown, hf.2.2.1, hf.2.2.2.1] using h.symm⟩

theorem memRead_spUp (s : State) (a : Word) : memRead s.spUp a = memRead s a := rfl

theorem execPop_next {o : Operand} {s t : State} (h : execPop o s = .next t) :
    ∃ (v : Word) (hv : v.toNat < 8) (b : Byte), resolve s o = .ok v ∧ memRead s (s.sp + 1) = .ok b ∧
      t = { s.setReg ⟨v.toNat, hv⟩ b with sp := s.sp + 1, pc := s.pc + BitVec.ofNat 16 (1 + o.bytes) } := by
  obtain ⟨v, hv, h⟩ := withOperand_next h
  obtain ⟨i, hi, h⟩ := attempt_next h
  obtain ⟨b, hb, h⟩ := attempt_next h
  rw [finish_eq] at h
  rw [resolve_spUp] at hv
  by_cases hlt : v.toNat < 8
  · rw [checkIndex_of_lt hlt] at hi
    cases hi
    exact ⟨v, hlt, b, hv, hb, by simpa [State.setReg, State.spUp] using h.symm⟩
  · rw [checkIndex_of_ge (by omega)] at hi
    cases hi

theorem execPopPc_next {s t : State} (h : execPopPc s = .next t) :
    ∃ b, memRead s (s.sp + 1) = .ok b ∧ t = { s with sp := s.sp + 1, pc := b.zext16 + 1 } := by
  obtain ⟨b, hb, h⟩ := attempt_next h
  exact ⟨b, hb, by simpa [State.spUp, State.trailing] using h.symm⟩

theorem execCmp_next {o : Operand} {s t : State} (h : execCmp o s = .next t) :
    ∃ v, resolve s o = .ok v ∧
      t = { s.setZ (compareZ (s.reg 0) v) with pc := s.pc + BitVec.ofNat 16 (1 + o.bytes) } := by
  obtain ⟨v, hv, h⟩ := withOperand_next h
  rw [finish_eq] at h
  exact ⟨v, hv, by simpa using h.symm⟩

theorem execAdd_next {o : Operand} {s t : State} (h : execAdd o s = .next t) :
    ∃ v, resolve s o = .ok v ∧
      t = { (s.setC (addCarry (s.reg 0))).setResult (Word.low8 ((s.reg 0).zext16 + v)) with
            pc := s.pc + BitVec.ofNat 16 (1 + o.bytes) } := by
  obtain ⟨v, hv, h⟩ := withOperand_next h
  rw [finish_eq] at h
  exact ⟨v, hv, by simpa using h.symm⟩

theorem execAnd_next {o : Operand} {s t : State} (h : execAnd o s = .next t) :
    ∃ v, resolve s o = .ok v ∧
      t = { s.setResult (Word.low8 ((s.reg 0).zext16 &&& v)) with pc := s.pc + BitVec.ofNat 16 (1 + o.bytes) } := by
  obtain ⟨v, hv, h⟩ := withOperand_next h
  rw [finish_eq] at h
  exact ⟨v, hv, by simpa using h.symm⟩

theorem execOr_next {o : Operand} {s t : State} (h : execOr o s = .next t) :
    ∃ v, resolve s o = .ok v ∧
      t = { s.setResult (Word.low8 ((s.reg 0).zext16 ||| v)) with pc := s.pc + BitVec.ofNat 16 (1 + o.bytes) } := by
  obtain ⟨v, hv, h⟩ := withOperand_next h
  rw [finish_eq] at h
  exact ⟨v, hv, by simpa using h.symm⟩

theorem execNot_next {m : Mode} {s t : State} (h : execNot m s = .next t) :
    t = { s.setResult (~~~(s.reg 0)) with pc := s.pc + 1 } := by
  simpa [execNot, finish, State.consume, State.trailing] using h.symm

theorem execShr_next {o : Operand} {s t : State} (h : execShr o s = .next t) :
    ∃ n, resolve s o = .ok n ∧
      t = { s.setResult (shiftRight (s.reg 0) n) with pc := s.pc + BitVec.ofNat 16 (1 + o.bytes) } := by
  obtain ⟨v, hv, h⟩ := withOperand_next h
  rw [finish_eq] at h
  exact ⟨v, hv, by simpa using h.symm⟩

theorem execShl_next {o : Operand} {s t : State} (h : execShl o s = .next t) :
    ∃ n, resolve s o = .ok n ∧
      t = { s.setResult (shiftLeft (s.reg 0) n) with pc := s.pc + BitVec.ofNat 16 (1 + o.bytes) } := by
  obtain ⟨v, hv, h⟩ := withOperand_next h
  rw [finish_eq] at h
  exact ⟨v, hv, by simpa using h.symm⟩

/-- Raising a fault answers no next state. -/
theorem raise_ne_next {s t : State} {n : Nat} {c : FaultCause} : raise s n c ≠ .next t := nofun

/-- An instruction with a stop code answers no next state. -/
theorem exec_ne_next_of_stopCode {i : Instr} {s t : State} (hi : i.stopCode ≠ none) : exec i s ≠ .next t := by
  intro h
  cases i <;> simp only [Instr.stopCode, ne_eq, not_true_eq_false] at hi <;> exact raise_ne_next h

end Sys2Proof.Machine
end

