-- ==== Sys2Proof/Laws/Fetch.lean ====
section
/-! SUPPORT. Fetching, said once: a byte of the stream, the bytes of a decoded instruction, and the fetch of all three lengths. -/

namespace Sys2Proof.Machine

theorem fetchByte_ok {s : State} {n : Nat} {v : Byte} (h : memRead s (s.pc + BitVec.ofNat 16 n) = .ok v) :
    fetchByte s n = .ok v := by
  simp [fetchByte, h]

theorem fetchByte_error {s : State} {n : Nat} {c : FaultCause} (h : memRead s (s.pc + BitVec.ofNat 16 n) = .error c) :
    fetchByte s n = .error (.cpu c s.pc (s.pc + BitVec.ofNat 16 n)) := by
  simp [fetchByte, h]

/-- A fetch of an instruction that is one byte. -/
theorem fetch_zero {s : State} {b : Byte} (h0 : fetchByte s 0 = .ok b) (hb : operandBytes b = 0) :
    fetch s = .ok (instrOf b 0 0) := by
  simp [fetch, h0, hb]

/-- A fetch of an instruction that is two bytes. -/
theorem fetch_one {s : State} {b x : Byte} (h0 : fetchByte s 0 = .ok b) (hb : operandBytes b = 1)
    (h1 : fetchByte s 1 = .ok x) : fetch s = .ok (instrOf b x 0) := by
  simp [fetch, h0, hb, h1]

/-- A fetch of an instruction that is three bytes. -/
theorem fetch_two {s : State} {b x y : Byte} (h0 : fetchByte s 0 = .ok b) (hb : operandBytes b = 2)
    (h1 : fetchByte s 1 = .ok x) (h2 : fetchSecond s b x = .ok y) : fetch s = .ok (instrOf b x y) := by
  simp [fetch, h0, hb, h1, h2]

/-- The second operand byte where no index check of mode 5 stops the fetch. -/
theorem fetchSecond_eq {s : State} {b x : Byte} (h : (headTakesPair b && decide (8 ≤ x.toNat)) = false) :
    fetchSecond s b x = fetchByte s 2 := by
  simp [fetchSecond, h]

end Sys2Proof.Machine
end

