-- ==== Sys2Proof/Laws/Interface.lean ====
section
/-! SUPPORT. What the host's transactions can do, said once: the bits of a snapshot and the answers of a host step. -/

namespace Sys2Proof.Machine

/-- One button's bit of the snapshot. -/
theorem getLsbD_buttonBit (k : Button) (n : Nat) : (1#8 <<< k.bit).getLsbD n = decide (k.bit = n) := by
  by_cases hn : n < 8
  · have key : ∀ m : Fin 8, (1#8 <<< k.bit).getLsbD m.val = decide (k.bit = m.val) := by cases k <;> decide
    exact key ⟨n, hn⟩
  · have : k.bit < 8 := by cases k <;> decide
    rw [BitVec.getLsbD_of_ge _ _ (by omega), decide_eq_false (by omega)]

/-- A bit of the snapshot: set by a held button of that bit, and bit 6 by the host's choice. -/
theorem getLsbD_snapshotOf (bit6 : Bool) (held : List Button) (n : Nat) :
    (snapshotOf bit6 held).getLsbD n = ((held.any fun k => decide (k.bit = n)) || (bit6 && decide (n = 6))) := by
  induction held with
  | nil =>
    have h : (0x40#8).getLsbD n = decide (n = 6) := by
      by_cases hn : n < 8
      · have key : ∀ m : Fin 8, (0x40#8).getLsbD m.val = decide (m.val = 6) := by decide
        exact key ⟨n, hn⟩
      · rw [BitVec.getLsbD_of_ge _ _ (by omega), decide_eq_false (by omega)]
    cases bit6 <;> simp [snapshotOf, h]
  | cons k ks ih => simp only [snapshotOf, BitVec.getLsbD_or, getLsbD_buttonBit, ih, List.any_cons, Bool.or_assoc]

/-- Everything a host step can answer with: the step's next state with nothing queued, or the fault in the run state. -/
theorem systemStep_ok {b : Byte} {s t : State} (h : systemStep b s = .ok t) :
    (∃ u, step { s with snapshots := [b] } = .next u ∧ t = { u with snapshots := [] }) ∨
    (∃ f, step { s with snapshots := [b] } = .fault f ∧ t = { s with run := .faulted f }) := by
  unfold systemStep at h
  cases hs : step { s with snapshots := [b] } with
  | next u => simp only [hs, Except.ok.injEq] at h; exact .inl ⟨u, rfl, h.symm⟩
  | fault f => simp only [hs, Except.ok.injEq] at h; exact .inr ⟨f, rfl, h.symm⟩
  | refused r => simp [hs] at h

end Sys2Proof.Machine
end

