-- ==== Sys2Proof/Laws/PerInstr.lean ====
section
/-! SUPPORT. The family `Encoded` of statements about each instruction as syntax: its first byte says how many bytes follow. -/

namespace Sys2Proof.Laws.Encoded

/-- The first byte of the instruction says how many bytes follow it (30_encoding.md R66). -/
def Statement (i : Instr) : Prop :=
  ∃ (b : Byte) (tail : List Byte), encode i = b :: tail ∧ tail.length = operandBytes b

/-- The statement for an instruction whose operand is resolved by its mode. -/
theorem of_operand (op : BitVec 5) (o : Operand) (h : op.toNat ≠ 31)
    (hb : operandBytesOfFields op o.mode = o.mode.bytes) :
    ∃ (b : Byte) (tail : List Byte), encodeM op o = b :: tail ∧ tail.length = operandBytes b :=
  ⟨_, _, rfl, by rw [Operand.stream_length, operandBytes_headByte _ _ h, hb, Operand.bytes]⟩

/-- The statement for an instruction that is one byte with a mode it ignores. -/
theorem of_mode (op : BitVec 5) (m : Mode) (h : ∀ m : Mode, operandBytes (headByte m.bits op) = 0) :
    ∃ (b : Byte) (tail : List Byte), encodeN op m = b :: tail ∧ tail.length = operandBytes b :=
  ⟨_, _, rfl, (h m).symm⟩

theorem halt : Statement .halt := ⟨_, _, rfl, by decide⟩
theorem noop (m : Mode) : Statement (.noop m) := of_mode 0 m (by intro m; cases m <;> decide)
theorem lda (o : Operand) : Statement (.lda o) := of_operand 1 o (by decide) rfl
theorem sam (o : Operand) : Statement (.sam o) := of_operand 2 o (by decide) rfl
theorem sar (o : Operand) : Statement (.sar o) := of_operand 3 o (by decide) rfl
theorem jmp (t : Byte) : Statement (.jmp t) := ⟨_, _, rfl, rfl⟩
theorem jz (t : Byte) : Statement (.jz t) := ⟨_, _, rfl, rfl⟩
theorem jnz (t : Byte) : Statement (.jnz t) := ⟨_, _, rfl, rfl⟩
theorem jmpM3 (t : Byte) : Statement (.jmpM3 t) := ⟨_, _, rfl, rfl⟩
theorem jmpM4 (t : Byte) : Statement (.jmpM4 t) := ⟨_, _, rfl, rfl⟩
theorem jmpM5 (t : Byte) : Statement (.jmpM5 t) := ⟨_, _, rfl, rfl⟩
theorem jmpM6 (t : Byte) : Statement (.jmpM6 t) := ⟨_, _, rfl, rfl⟩
theorem jmpM7 (t : Byte) : Statement (.jmpM7 t) := ⟨_, _, rfl, rfl⟩
theorem psh (o : Operand) : Statement (.psh o) := of_operand 5 o (by decide) rfl
theorem popPc : Statement .popPc := ⟨_, _, rfl, by decide⟩
theorem pop (o : Operand) : Statement (.pop o) := of_operand 6 o (by decide) rfl
theorem cmp (o : Operand) : Statement (.cmp o) := of_operand 7 o (by decide) rfl
theorem add (o : Operand) : Statement (.add o) := of_operand 8 o (by decide) rfl
theorem and (o : Operand) : Statement (.and o) := of_operand 9 o (by decide) rfl
theorem or (o : Operand) : Statement (.or o) := of_operand 10 o (by decide) rfl
theorem not (m : Mode) : Statement (.not m) := of_mode 11 m (by intro m; cases m <;> decide)
theorem shr (o : Operand) : Statement (.shr o) := of_operand 12 o (by decide) rfl
theorem shl (o : Operand) : Statement (.shl o) := of_operand 13 o (by decide) rfl
theorem unknown14 (m : Mode) : Statement (.unknown14 m) := of_mode 14 m (by intro m; cases m <;> decide)
theorem unknown15 (m : Mode) : Statement (.unknown15 m) := of_mode 15 m (by intro m; cases m <;> decide)
theorem unknown16 (m : Mode) : Statement (.unknown16 m) := of_mode 16 m (by intro m; cases m <;> decide)
theorem unknown17 (m : Mode) : Statement (.unknown17 m) := of_mode 17 m (by intro m; cases m <;> decide)
theorem unknown18 (m : Mode) : Statement (.unknown18 m) := of_mode 18 m (by intro m; cases m <;> decide)
theorem unknown19 (m : Mode) : Statement (.unknown19 m) := of_mode 19 m (by intro m; cases m <;> decide)
theorem unknown20 (m : Mode) : Statement (.unknown20 m) := of_mode 20 m (by intro m; cases m <;> decide)
theorem unknown21 (m : Mode) : Statement (.unknown21 m) := of_mode 21 m (by intro m; cases m <;> decide)
theorem unknown22 (m : Mode) : Statement (.unknown22 m) := of_mode 22 m (by intro m; cases m <;> decide)
theorem unknown23 (m : Mode) : Statement (.unknown23 m) := of_mode 23 m (by intro m; cases m <;> decide)
theorem unknown24 (m : Mode) : Statement (.unknown24 m) := of_mode 24 m (by intro m; cases m <;> decide)
theorem unknown25 (m : Mode) : Statement (.unknown25 m) := of_mode 25 m (by intro m; cases m <;> decide)
theorem unknown26 (m : Mode) : Statement (.unknown26 m) := of_mode 26 m (by intro m; cases m <;> decide)
theorem unknown27 (m : Mode) : Statement (.unknown27 m) := of_mode 27 m (by intro m; cases m <;> decide)
theorem unknown28 (m : Mode) : Statement (.unknown28 m) := of_mode 28 m (by intro m; cases m <;> decide)
theorem unknown29 (m : Mode) : Statement (.unknown29 m) := of_mode 29 m (by intro m; cases m <;> decide)
theorem unknown30 (m : Mode) : Statement (.unknown30 m) := of_mode 30 m (by intro m; cases m <;> decide)
theorem unknown31 (m : Mode) : Statement (.unknown31 m) := of_mode 31 m (by intro m; cases m <;> decide)

end Sys2Proof.Laws.Encoded
end

