-- ==== Sys2Proof/Laws/Render.lean ====
section
/-! SUPPORT. What the renderer and the refresh service can do, said once. -/

namespace Sys2Proof.Machine

/-- Tile bytes that were read are the content's, and lie inside it. -/
theorem tileBytesAt_ok {s : State} {t : Byte} {js : List Nat} {bs : List Byte} (h : tileBytesAt s t js = .ok bs) :
    bs = js.map (fun j => s.content.read (0x4000 + t.toNat * 24 + j)) ∧
    ∀ j ∈ js, 0x4000 + t.toNat * 24 + j < s.cart.contentLength := by
  induction js generalizing bs with
  | nil => simpa [tileBytesAt] using h.symm
  | cons j js ih =>
    simp only [tileBytesAt, tileByteAt] at h
    rcases contentAt_cases s (0x4000 + t.toNat * 24 + j) (BitVec.ofNat 16 (0xA100 + t.toNat * 24 + j)) with ⟨_, hc⟩ | ⟨hlt, hc⟩
    · simp [hc] at h
    · simp only [hc] at h
      cases hr : tileBytesAt s t js with
      | error c => simp [hr] at h
      | ok r =>
        simp only [hr, Except.ok.injEq] at h
        obtain ⟨h1, h2⟩ := ih hr
        subst h
        exact ⟨by simp [h1], by simpa using ⟨hlt, h2⟩⟩

/-- Tile bytes that all lie inside the content are read. -/
theorem tileBytesAt_of_inside {s : State} {t : Byte} {js : List Nat}
    (h : ∀ j ∈ js, 0x4000 + t.toNat * 24 + j < s.cart.contentLength) :
    tileBytesAt s t js = .ok (js.map fun j => s.content.read (0x4000 + t.toNat * 24 + j)) := by
  induction js with
  | nil => rfl
  | cons j js ih =>
    have hj : ¬ s.cart.contentLength ≤ 0x4000 + t.toNat * 24 + j := by
      have := h j (by simp)
      omega
    simp [tileBytesAt, tileByteAt, contentAt, hj, ih (fun i hi => h i (by simp [hi]))]

/-- A tile read that fails reports a byte that lies outside the content. -/
theorem tileBytesAt_error {s : State} {t : Byte} {js : List Nat} {c : FaultCause} (h : tileBytesAt s t js = .error c) :
    ∃ a k, c = .contentOutOfRange a k ∧ s.cart.contentLength ≤ k := by
  induction js with
  | nil => simp [tileBytesAt] at h
  | cons j js ih =>
    simp only [tileBytesAt, tileByteAt] at h
    rcases contentAt_cases s (0x4000 + t.toNat * 24 + j) (BitVec.ofNat 16 (0xA100 + t.toNat * 24 + j)) with ⟨hk, hc⟩ | ⟨_, hc⟩
    · simp only [hc, Except.error.injEq] at h
      exact ⟨_, _, h.symm, hk⟩
    · simp only [hc] at h
      cases hr : tileBytesAt s t js with
      | error d =>
        simp only [hr, Except.error.injEq] at h
        exact ih (by rw [hr, h])
      | ok r => simp [hr] at h

/-- A pixel is a palette index (R120). -/
theorem pixelOf_lt (tile : List Byte) (i : Nat) : (pixelOf tile i).toNat < 8 := by
  have key : ∀ w : Word, (Word.low8 (w &&& 7)).toNat < 8 := by
    intro w
    have h : (w &&& 7#16).toNat ≤ 7 := by
      rw [BitVec.toNat_and]
      exact Nat.and_le_right
    simp only [BitVec.toNat_setWidth]
    exact Nat.lt_of_le_of_lt (Nat.mod_le _ _) (by simpa using Nat.lt_succ_of_le h)
  exact key _

/-- A pixel lands at the index p = x + 128 y of the coordinates (x, y) it has, inside the framebuffer. -/
theorem fbIndex_eq_some {fx fy : Int} {p : Nat} (h : fbIndex fx fy = some p) :
    ∃ x y : Nat, fx = x ∧ fy = y ∧ x < 128 ∧ y < 64 ∧ p = x + y * 128 := by
  unfold fbIndex at h
  split at h
  · rename_i hin
    simp only [Option.some.injEq] at h
    exact ⟨fx.toNat, fy.toNat, by omega, by omega, by omega, by omega, h.symm⟩
  · simp at h

/-- What drawing keeps of a framebuffer: its canonical form, its size, its palette. -/
def Memory.isFramebuffer (m : Memory) : Bool := m.wf && m.within 8192 && m.palette

theorem isFramebuffer_nil : Memory.isFramebuffer [] = true := rfl

theorem drawPixels_isFramebuffer {sx sy cx cy : Byte} {tile : List Byte} {is : List Nat} {fb : Memory}
    (h : fb.isFramebuffer = true) : (drawPixels sx sy cx cy tile is fb).isFramebuffer = true := by
  induction is generalizing fb with
  | nil => exact h
  | cons i is ih =>
    unfold drawPixels
    cases hp : pixelIndex sx sy cx cy i with
    | none => exact ih h
    | some p =>
      obtain ⟨x, y, _, _, hx, hy, rfl⟩ := fbIndex_eq_some hp
      refine ih ?_
      simp only [Memory.isFramebuffer, Bool.and_eq_true] at h ⊢
      exact ⟨⟨Memory.write_wf _ _ h.1.1, Memory.write_within _ h.1.2 (by omega)⟩,
        Memory.write_palette _ h.2 (pixelOf_lt _ _)⟩

theorem drawEntries_isFramebuffer {s : State} {ks : List Nat} {fb fb' : Memory} (h : fb.isFramebuffer = true)
    (hd : drawEntries s ks fb = .ok fb') : fb'.isFramebuffer = true := by
  induction ks generalizing fb with
  | nil =>
    simp only [drawEntries, Except.ok.injEq] at hd
    exact hd ▸ h
  | cons k ks ih =>
    simp only [drawEntries, drawEntry] at hd
    cases ht : tileAt s (s.desc.read (3 * k)) with
    | error c => simp [ht] at hd
    | ok tile =>
      simp only [ht] at hd
      exact ih (drawPixels_isFramebuffer h) hd

/-- A content that holds all 256 tiles is drawn without a fault. -/
theorem drawEntries_of_inside {s : State} (h : 0x5800 ≤ s.cart.contentLength) (ks : List Nat) (fb : Memory) :
    ∃ fb', drawEntries s ks fb = .ok fb' := by
  induction ks generalizing fb with
  | nil => exact ⟨fb, rfl⟩
  | cons k ks ih =>
    have hk := (s.desc.read (3 * k)).isLt
    have ht : tileAt s (s.desc.read (3 * k)) = .ok _ :=
      tileBytesAt_of_inside fun j hj => by have := List.mem_range.1 hj; omega
    simp only [drawEntries, drawEntry, ht]
    exact ih _

/-- What drawing the listed pixels leaves at a place: what was there where none of them lands, and the pixel where just one
does. -/
theorem drawPixels_read {sx sy cx cy : Byte} {tile : List Byte} {is : List Nat} {fb : Memory} (h : fb.wf = true) (p : Nat) :
    (drawPixels sx sy cx cy tile is fb).wf = true ∧
    ((∀ i ∈ is, pixelIndex sx sy cx cy i ≠ some p) → (drawPixels sx sy cx cy tile is fb).read p = fb.read p) ∧
    (∀ i ∈ is, pixelIndex sx sy cx cy i = some p → (∀ j ∈ is, pixelIndex sx sy cx cy j = some p → j = i) →
      (drawPixels sx sy cx cy tile is fb).read p = pixelOf tile i) := by
  induction is generalizing fb with
  | nil => exact ⟨h, fun _ => rfl, fun i hi => by simp at hi⟩
  | cons j is ih =>
    unfold drawPixels
    cases hp : pixelIndex sx sy cx cy j with
    | none =>
      obtain ⟨a, b, c⟩ := ih h
      refine ⟨a, fun hn => b fun i hi => hn i (by simp [hi]), fun i hi hip hu => ?_⟩
      have hij : i ≠ j := by rintro rfl; rw [hp] at hip; cases hip
      exact c i (by simpa [hij] using hi) hip fun k hk => hu k (by simp [hk])
    | some q =>
      obtain ⟨a, b, c⟩ := ih (Memory.write_wf q (pixelOf tile j) h)
      refine ⟨a, fun hn => ?_, fun i hi hip hu => ?_⟩
      · rw [b fun i hi => hn i (by simp [hi])]
        have : p ≠ q := by rintro rfl; exact hn j (by simp) hp
        exact Memory.read_write_other _ _ this
      · by_cases hmem : i ∈ is
        · exact c i hmem hip fun k hk => hu k (by simp [hk])
        · have hij : i = j := by simpa [hmem] using hi
          subst hij
          rw [hp] at hip; cases hip
          refine (b fun k hk hkp => hmem ?_).trans (Memory.read_write_same _ _ h)
          rw [← hu k (by simp [hk]) hkp]; exact hk

/-- A render that fails reports a content offset past the end. -/
theorem drawEntries_error {s : State} {ks : List Nat} {fb : Memory} {c : FaultCause} (hd : drawEntries s ks fb = .error c) :
    ∃ a k, c = .contentOutOfRange a k ∧ s.cart.contentLength ≤ k := by
  induction ks generalizing fb with
  | nil => simp [drawEntries] at hd
  | cons k ks ih =>
    simp only [drawEntries, drawEntry] at hd
    cases ht : tileAt s (s.desc.read (3 * k)) with
    | error d =>
      simp only [ht, Except.error.injEq] at hd
      exact hd ▸ tileBytesAt_error ht
    | ok tile =>
      simp only [ht] at hd
      exact ih hd

/-- What a completed refresh service leaves. -/
theorem refreshService_next {s t : State} (h : refreshService s = .next t) :
    ∃ fb, render (beginRefresh s) [] = .ok fb ∧ fb.isFramebuffer = true ∧ t = endRefresh (beginRefresh s) fb := by
  simp only [refreshService, beginRefresh_fb] at h
  cases hr : render (beginRefresh s) [] with
  | error c => simp [hr] at h
  | ok fb =>
    simp only [hr, Host.Outcome.next.injEq] at h
    exact ⟨fb, rfl, drawEntries_isFramebuffer isFramebuffer_nil hr, h.symm⟩

/-- What a refresh service that stops reports. -/
theorem refreshService_fault {s : State} {f : Fault} (h : refreshService s = .fault f) :
    ∃ a k, f = .render (.contentOutOfRange a k) s.pc s.pc ∧ s.cart.contentLength ≤ k := by
  simp only [refreshService, beginRefresh_fb] at h
  cases hr : render (beginRefresh s) [] with
  | ok fb => simp [hr] at h
  | error c =>
    obtain ⟨a, k, rfl, hk⟩ := drawEntries_error hr
    simp only [hr, Host.Outcome.fault.injEq] at h
    exact ⟨a, k, h.symm, hk⟩

/-- A refresh service is never refused. -/
theorem refreshService_ne_refused (s : State) (r : Refusal) : refreshService s ≠ .refused r := by
  unfold refreshService
  cases render (beginRefresh s) (beginRefresh s).fb <;> simp

/-- Everything the refresh check can answer with. -/
theorem refreshCheck_next {s t : State} (h : refreshCheck s = .next t) :
    (s.io.read 0x00 ≠ 1 ∧ t = s) ∨ (s.io.read 0x00 = 1 ∧ refreshService s = .next t) := by
  unfold refreshCheck at h
  split at h
  · exact .inr ⟨‹_›, h⟩
  · exact .inl ⟨‹_›, by simpa using h.symm⟩

/-- A system step answers a next state only through a Cpu step that does. -/
theorem step_next {s t : State} (h : step s = .next t) :
    ∃ i u, s.run = .running ∧ fetch s = .ok i ∧ exec i s = .next u ∧ refreshCheck u = .next t := by
  unfold step at h
  cases hr : s.run with
  | halted => simp [hr] at h
  | faulted f => simp [hr] at h
  | running =>
    simp only [hr, cpuStep] at h
    cases hf : fetch s with
    | error f => simp [hf, afterCpuStep] at h
    | ok i =>
      simp only [hf] at h
      cases he : exec i s with
      | next u =>
        simp only [he, afterCpuStep] at h
        exact ⟨i, u, rfl, rfl, he, h⟩
      | fault f => simp [he, afterCpuStep] at h
      | refused r => simp [he, afterCpuStep] at h

end Sys2Proof.Machine
end

