-- ==== Sys2Proof/Tests/Slice0.lean ====
section
/-! SUPPORT. The author's tests. Expected results come from spec/95_test_vectors.md (V, RV, SV, W) or from the encoding tables of
spec/30_encoding.md; a witness shows a concrete case that meets the hypotheses of an obligation. -/

namespace Sys2Proof.Machine.Tests

/-! ### Helpers -/

/-- The vectors' header with other bank counts. -/
def cartOf (rom video : Byte) : Header := { Header.ofVectors with romBanks := rom, videoBanks := video }

/-- The vectors' start state with instruction bytes at address `a` and the pc there. -/
def codeAt (a : Word) (bytes : List Byte) : State :=
  { State.resetWith Header.ofVectors (Memory.writeAll [] a.toNat bytes) with pc := a }

/-- The vectors' start state with instruction bytes at 0x0000. -/
def code (bytes : List Byte) : State := codeAt 0 bytes

/-- The start state with other bank counts. -/
def banks (s : State) (rom video : Byte) : State := { s with cart := { s.cart with romBanks := rom, videoBanks := video } }

/-- A result is a next state that passes a check. -/
def nextIs (r : Result) (p : State → Bool) : Bool :=
  match r with
  | .next t => p t
  | .fault _ => false
  | .refused _ => false

/-- A result is a given fault. -/
def faultIs (r : Result) (f : Fault) : Bool :=
  match r with
  | .next _ => false
  | .fault g => decide (g = f)
  | .refused _ => false

/-- The registers the vectors name most: R0, FLAGS and pc. -/
def r0FlagsPc (t : State) (v f : Byte) (p : Word) : Bool := decide (t.reg 0 = v) && decide (t.flags = f) && decide (t.pc = p)

/-! ### WellFormed -/

theorem test_wf_refuses_pop_of_mode_seven : Instr.wf (.pop .pc) = false := by decide
theorem test_wf_refuses_opcode_31_of_mode_seven : Instr.wf (.unknown31 .pc) = false := by decide
theorem test_wf_admits_their_neighbours : Instr.wf (.pop .carry) = true ∧ Instr.wf (.unknown31 .carry) = true := by decide

/-! ### Decoding, from the bits of 30_encoding.md: mode in bits 7..5, opcode in bits 4..0 -/

theorem test_decode_system :
    decode [0b11111111] = .ok (.halt, []) ∧ decode [0b00000000] = .ok (.noop .imm8, []) ∧
    decode [0b11100000, 0x07] = .ok (.noop .pc, [0x07]) := ⟨rfl, rfl, rfl⟩

theorem test_decode_every_mode_of_lda :
    decode [0b00000001, 0x42] = .ok (.lda (.imm8 0x42), []) ∧
    decode [0b00100001, 0x10] = .ok (.lda (.mem8 0x10), []) ∧
    decode [0b01000001, 0x03] = .ok (.lda (.reg 3), []) ∧
    decode [0b01100001, 0x12, 0x34] = .ok (.lda (.imm16 0x1234), []) ∧
    decode [0b10000001, 0x81, 0x00] = .ok (.lda (.mem16 0x8100), []) ∧
    decode [0b10100001, 0x01, 0x02] = .ok (.lda (.pair 1 2), []) ∧
    decode [0b11000001] = .ok (.lda .carry, []) ∧
    decode [0b11100001] = .ok (.lda .pc, []) := ⟨rfl, rfl, rfl, rfl, rfl, rfl, rfl, rfl⟩

theorem test_decode_stores :
    decode [0b01100010, 0xA1, 0x00] = .ok (.sam (.imm16 0xA100), []) ∧
    decode [0b00000011, 0x07] = .ok (.sar (.imm8 7), []) := ⟨rfl, rfl⟩

theorem test_decode_jumps :
    decode [0b00000100, 0x20] = .ok (.jmp 0x20, []) ∧ decode [0b00100100, 0x10] = .ok (.jz 0x10, []) ∧
    decode [0b01000100, 0x02] = .ok (.jnz 0x02, []) ∧ decode [0b01100100, 0x10] = .ok (.jmpM3 0x10, []) ∧
    decode [0b10000100, 0x10] = .ok (.jmpM4 0x10, []) ∧ decode [0b10100100, 0x10] = .ok (.jmpM5 0x10, []) ∧
    decode [0b11000100, 0x10] = .ok (.jmpM6 0x10, []) ∧ decode [0b11100100, 0x10] = .ok (.jmpM7 0x10, []) :=
  ⟨rfl, rfl, rfl, rfl, rfl, rfl, rfl, rfl⟩

theorem test_decode_stack :
    decode [0b01000101, 0x00] = .ok (.psh (.reg 0), []) ∧ decode [0b11100101] = .ok (.psh .pc, []) ∧
    decode [0b00000110, 0x03] = .ok (.pop (.imm8 3), []) ∧ decode [0b11000110] = .ok (.pop .carry, []) ∧
    decode [0b11100110] = .ok (.popPc, []) := ⟨rfl, rfl, rfl, rfl, rfl⟩

theorem test_decode_alu :
    decode [0b01100111, 0x01, 0x07] = .ok (.cmp (.imm16 0x0107), []) ∧ decode [0b00001000, 0x05] = .ok (.add (.imm8 5), []) ∧
    decode [0b00001001, 0x3C] = .ok (.and (.imm8 0x3C), []) ∧ decode [0b00001010, 0x80] = .ok (.or (.imm8 0x80), []) ∧
    decode [0b11101011] = .ok (.not .pc, []) ∧ decode [0b00001100, 0x07] = .ok (.shr (.imm8 7), []) ∧
    decode [0b11001101] = .ok (.shl .carry, []) := ⟨rfl, rfl, rfl, rfl, rfl, rfl, rfl⟩

theorem test_decode_illegal_opcodes :
    decode [0b00001110] = .ok (.unknown14 .imm8, []) ∧ decode [0b00001111] = .ok (.unknown15 .imm8, []) ∧
    decode [0b00110000] = .ok (.unknown16 .mem8, []) ∧ decode [0b00010001] = .ok (.unknown17 .imm8, []) ∧
    decode [0b00010010] = .ok (.unknown18 .imm8, []) ∧ decode [0b00010011] = .ok (.unknown19 .imm8, []) ∧
    decode [0b00010100] = .ok (.unknown20 .imm8, []) ∧ decode [0b00010101] = .ok (.unknown21 .imm8, []) ∧
    decode [0b00010110] = .ok (.unknown22 .imm8, []) ∧ decode [0b00010111] = .ok (.unknown23 .imm8, []) ∧
    decode [0b00011000] = .ok (.unknown24 .imm8, []) ∧ decode [0b00011001] = .ok (.unknown25 .imm8, []) ∧
    decode [0b00011010] = .ok (.unknown26 .imm8, []) ∧ decode [0b00011011] = .ok (.unknown27 .imm8, []) ∧
    decode [0b00011100] = .ok (.unknown28 .imm8, []) ∧ decode [0b00011101] = .ok (.unknown29 .imm8, []) ∧
    decode [0b00011110] = .ok (.unknown30 .imm8, []) ∧ decode [0b11011111] = .ok (.unknown31 .carry, []) :=
  ⟨rfl, rfl, rfl, rfl, rfl, rfl, rfl, rfl, rfl, rfl, rfl, rfl, rfl, rfl, rfl, rfl, rfl, rfl⟩

theorem test_decode_wants_all_bytes :
    decode [] = .error .noInstructionByte ∧ decode [0x61, 0x12] = .error .missingOperandBytes := ⟨rfl, rfl⟩

theorem test_decode_table_word : decodeTableWord 24 0x008162 = some (.sam (.imm16 0x8100)) := rfl

theorem test_placed_word_runs_after_reset :
    nextIs (step (State.reset.withFetchWord 8 0xC1)) (fun t => r0FlagsPc t 0 0 1) = true := rfl

/-! ### One instruction each (spec/95_test_vectors.md, part 4) -/

theorem test_v92_halt : nextIs (step ((code [0xFF]).setReg 0 0x11)) (fun t => r0FlagsPc t 0x11 0 0 && decide (t.run = .halted)) = true := rfl
theorem test_v18_noop_mode_3 : nextIs (step (code [0x60])) (fun t => r0FlagsPc t 0 0 1) = true := rfl
theorem test_v10_lda_switchable_bank :
    nextIs (step (banks { code [0x81, 0x40, 0x00] with content := [(0, 0x81), (1, 0x40), (0x4000, 0x3C)] } 2 1))
      (fun t => r0FlagsPc t 0x3C 0 3) = true := rfl
theorem test_v12_lda_pair_low_register :
    nextIs (step (((code [0xA1, 0x01, 0x02]).setReg 1 0x12).setReg 2 0x34)) (fun t => r0FlagsPc t 0x34 0 3) = true := rfl
theorem test_v27_sam_pair :
    nextIs (step (((((code [0xA2, 0x01, 0x02]).setReg 0 0x2A).setReg 1 0x81).setReg 2 0x05))) (fun t => decide (t.ram = [(5, 0x2A)])) = true := rfl
theorem test_v22_sam_read_only :
    faultIs (step ((code [0x62, 0xA1, 0x00]).setReg 0 0x2A)) (.cpu (.readOnlyWrite 0xA100) 0 2) = true := rfl
theorem test_v31_sar_16_bit_index :
    nextIs (step ((code [0x63, 0x00, 0x03]).setReg 0 0x2A)) (fun t => decide (t.reg 3 = 0x2A) && decide (t.pc = 3)) = true := rfl
theorem test_v32_sar_index_above_a_byte :
    faultIs (step ((code [0x63, 0x01, 0x03]).setReg 0 0x2A)) (.cpu (.badRegisterIndex 0x0103) 0 2) = true := rfl
theorem test_v42_jmp : nextIs (step (codeAt 0x0200 [0x04, 0x10])) (fun t => decide (t.pc = 0x10)) = true := rfl
theorem test_v37_jmp_to_zero : nextIs (step (codeAt 0x0200 [0x04, 0x00])) (fun t => decide (t.pc = 0)) = true := rfl
theorem test_v38_jz_taken : nextIs (step ((code [0x24, 0x10]).setZ true)) (fun t => decide (t.pc = 0x10)) = true := rfl
theorem test_v39_jz_not_taken : nextIs (step (code [0x24, 0x10])) (fun t => decide (t.pc = 2)) = true := rfl
theorem test_v40_jnz_taken : nextIs (step (code [0x44, 0x10])) (fun t => decide (t.pc = 0x10)) = true := rfl
theorem test_v41_jnz_not_taken : nextIs (step ((code [0x44, 0x10]).setZ true)) (fun t => decide (t.pc = 2)) = true := rfl
theorem test_v43_jmp_m3 : faultIs (step (code [0x64, 0x10])) (.cpu (.unknownJumpCondition 0x64) 0 1) = true := rfl
theorem test_jmp_m4 : faultIs (step (code [0x84, 0x10])) (.cpu (.unknownJumpCondition 0x84) 0 1) = true := rfl
theorem test_jmp_m5 : faultIs (step (code [0xA4, 0x10])) (.cpu (.unknownJumpCondition 0xA4) 0 1) = true := rfl
theorem test_jmp_m6 : faultIs (step (code [0xC4, 0x10])) (.cpu (.unknownJumpCondition 0xC4) 0 1) = true := rfl
theorem test_v44_jmp_m7 : faultIs (step (code [0xE4, 0x10])) (.cpu (.unknownJumpCondition 0xE4) 0 1) = true := rfl
theorem test_v45_jmp_target_fetched_first :
    faultIs (step (codeAt 0x3FFF [0x64])) (.cpu (.singleBankAccess 0x4000) 0x3FFF 0x4000) = true := rfl
theorem test_v48_psh_pc :
    nextIs (step (codeAt 0x0134 [0xE5])) (fun t => decide (t.stack = [(0x2DFF, 0x34)]) && decide (t.sp = 0xFFFE)) = true := rfl
theorem test_v47_psh_wraps :
    nextIs (step { code [0x05, 0x99] with sp := 0 }) (fun t => decide (t.content.read 0 = 0x99) && decide (t.sp = 0xFFFF)) = true := rfl
theorem test_v53_pop_wraps :
    nextIs (step (code [0x06, 0x02])) (fun t => decide (t.reg 2 = 0x06) && decide (t.sp = 0)) = true := rfl
theorem test_v55_pop_indirect :
    nextIs (step { ((code [0x46, 0x01]).setReg 1 4) with sp := 0xFFFE, stack := [(0x2DFF, 0x2A)] })
      (fun t => decide (t.reg 4 = 0x2A) && decide (t.sp = 0xFFFF) && decide (t.pc = 2)) = true := rfl
theorem test_v58_pop_pc :
    nextIs (step { code [0xE6] with sp := 0xFFFE, stack := [(0x2DFF, 0xFF)] })
      (fun t => decide (t.pc = 0x100) && decide (t.sp = 0xFFFF)) = true := rfl
theorem test_v59_pop_pc_fault : faultIs (step { code [0xE6] with sp := 0x3FFF }) (.cpu (.singleBankAccess 0x4000) 0 0) = true := rfl
theorem test_v62_cmp_equal : nextIs (step { (code [0x07, 0x07]).setReg 0 7 with flags := 6 }) (fun t => r0FlagsPc t 7 7 2) = true := rfl
theorem test_v64_cmp_16_bits : nextIs (step ((code [0x67, 0x01, 0x07]).setReg 0 7)) (fun t => r0FlagsPc t 7 0 3) = true := rfl
theorem test_v68_add_from_zero : nextIs (step (code [0x08, 0x05])) (fun t => r0FlagsPc t 5 2 2) = true := rfl
theorem test_v70_add_overflow : nextIs (step ((code [0x08, 0x01]).setReg 0 0xFF)) (fun t => r0FlagsPc t 0 1 2) = true := rfl
theorem test_v76_and : nextIs (step ((code [0x09, 0x3C]).setReg 0 0xF0)) (fun t => r0FlagsPc t 0x30 0 2) = true := rfl
theorem test_v78_and_carry : nextIs (step (((code [0xC9]).setReg 0 0x81).setC true)) (fun t => r0FlagsPc t 1 2 1) = true := rfl
theorem test_v79_or : nextIs (step ((code [0x0A, 0x80]).setReg 0 0x0F)) (fun t => r0FlagsPc t 0x8F 4 2) = true := rfl
theorem test_v80_or_loses_high_byte : nextIs (step (code [0x6A, 0xFF, 0x00])) (fun t => r0FlagsPc t 0 1 3) = true := rfl
theorem test_v81_v83_not :
    nextIs (step ((code [0x0B]).setReg 0 0x2A)) (fun t => r0FlagsPc t 0xD5 4 1) = true ∧
    nextIs (step ((code [0xEB]).setC true)) (fun t => r0FlagsPc t 0xFF 6 1) = true := ⟨rfl, rfl⟩
theorem test_v82_not_to_zero : nextIs (step ((code [0x0B]).setReg 0 0xFF)) (fun t => r0FlagsPc t 0 1 1) = true := rfl
theorem test_v84_v86_shr :
    nextIs (step ((code [0x0C, 0x07]).setReg 0 0x80)) (fun t => r0FlagsPc t 1 0 2) = true ∧
    nextIs (step ((code [0x0C, 0x00]).setReg 0 0x80)) (fun t => r0FlagsPc t 0x80 4 2) = true := ⟨rfl, rfl⟩
theorem test_v87_shr_wide_count : nextIs (step ((code [0x6C, 0x01, 0x00]).setReg 0 0xFF)) (fun t => r0FlagsPc t 0 1 3) = true := rfl
theorem test_v88_v89_shl :
    nextIs (step ((code [0x0D, 0x01]).setReg 0 0x81)) (fun t => r0FlagsPc t 2 0 2) = true ∧
    nextIs (step ((code [0x0D, 0x07]).setReg 0 1)) (fun t => r0FlagsPc t 0x80 4 2) = true := ⟨rfl, rfl⟩
theorem test_v91_shl_carry : nextIs (step (((code [0xCD]).setReg 0 3).setC true)) (fun t => r0FlagsPc t 6 2 1) = true := rfl
theorem test_v93_unknown_14 : faultIs (step (code [0x0E, 0x00])) (.cpu (.unknownOpcode 0x0E) 0 0) = true := rfl
theorem test_v97_unknown_16 : faultIs (step (code [0x30])) (.cpu (.unknownOpcode 0x30) 0 0) = true := rfl
theorem test_v96_unknown_31 : faultIs (step (code [0xDF])) (.cpu (.unknownOpcode 0xDF) 0 0) = true := rfl

/-! ### The fetch and the operand faults -/

theorem test_v13_pair_first_index : faultIs (step (code [0xA1, 0x09, 0x02])) (.cpu (.badRegisterIndex 9) 0 1) = true := rfl
theorem test_v14_pair_second_index : faultIs (step (code [0xA1, 0x01, 0x08])) (.cpu (.badRegisterIndex 8) 0 2) = true := rfl
theorem test_v11_content_out_of_range :
    faultIs (step (banks (code [0x81, 0xA1, 0x00]) 1 0)) (.cpu (.contentOutOfRange 0xA100 0x4000) 0 2) = true := rfl

/-! ### Pixels and refresh (parts 5 and 6) -/

/-- A tile whose listed first bytes are given. -/
def tile (bs : List Byte) : List Byte := bs ++ List.replicate (24 - bs.length) 0

theorem test_rv8_row_of_eight_indices :
    (List.range 8).map (pixelOf (tile [0x88, 0xC6, 0xFA])) = [0, 1, 2, 3, 4, 5, 6, 7] := rfl
theorem test_rv6_last_pixel : pixelOf (List.replicate 23 0 ++ [0xE0]) 63 = 7 := rfl
theorem test_rv11_scrolled_cell : pixelIndex 8 0 16 0 0 = some 120 := rfl
theorem test_rv13_no_eight_bit_wrap : pixelIndex 129 0 0 0 0 = none := rfl
theorem test_rv12_entry_drawn :
    drawEntry { State.reset with desc := [(2, 1)], io := [(2, 8)], content := [(0x4000, 0x07)] } 0 [] = .ok [(0, 7)] := by decide +kernel
theorem test_sv2_only_one_triggers :
    nextIs (step ((code [0x62, 0x80, 0x00]).setReg 0 2)) (fun t => decide (t.io = [(0, 2)]) && decide (t.refreshes = 0)) = true := rfl
theorem test_sv3_render_fault :
    faultIs (step (banks ((code [0x62, 0x80, 0x00]).setReg 0 1) 1 0)) (.render (.contentOutOfRange 0xA100 0x4000) 3 3) = true := rfl

/-! ### Witnesses: a concrete case that meets the hypotheses of each obligation, at the ends of the ranges it names -/

/-- A result is a next state. -/
def completes (r : Result) : Bool := nextIs r fun _ => true

/-- A refresh of the reset state completes: its content holds every tile. -/
theorem refresh_of_reset : ∃ t, refreshService State.reset = .next t := by
  obtain ⟨fb, h⟩ := drawEntries_of_inside (s := beginRefresh State.reset) (by decide) (List.range 153) []
  exact ⟨endRefresh (beginRefresh State.reset) fb, by simp only [refreshService, beginRefresh_fb, render, h]⟩

/-- A step from this state stores 1 in io[0x00] and so refreshes. -/
def requesting : State := (code [0x62, 0x80, 0x00]).setReg 0 1

/-- The snapshot of A and Start held. -/
def aAndStart : Byte := snapshotOf false [.a, .start]

/-- That state with the snapshot queued, and the same after its Cpu step, the refresh still to come. -/
def queued : State := { requesting with snapshots := [aAndStart] }
def requested : State := { queued with io := [(0, 1)], pc := 3 }

/-- A host step from that state refreshes. -/
theorem systemStep_of_requesting :
    ∃ t, systemStep aAndStart requesting = .ok t ∧ t.refreshes = requesting.refreshes + 1 := by
  obtain ⟨fb, h⟩ := drawEntries_of_inside (s := beginRefresh requested) (by decide) (List.range 153) []
  have hr : queued.run = .running := rfl
  have hc : cpuStep queued = .next requested := rfl
  have h1 : requested.io.read 0 = 1 := rfl
  have hs : refreshService requested = .next (endRefresh (beginRefresh requested) fb) := by
    simp only [refreshService, beginRefresh_fb, render, h]
  have hq : step queued = .next (endRefresh (beginRefresh requested) fb) := by
    simp only [step, hr, hc, afterCpuStep, refreshCheck, h1, if_true, hs]
  rw [queued] at hq
  exact ⟨{ endRefresh (beginRefresh requested) fb with snapshots := [] }, by simp only [systemStep, hq], rfl⟩

/-- DecodeUndoesEncode, EncodeUndoesDecode, LengthsFollowTheFirstByte (both clauses of the length). -/
theorem test_witness_encoding :
    Instr.wf (.sam (.imm16 0xFFFF)) = true ∧ decode [0xA2, 0xFF, 0x08, 0x00] = .ok (.sam (.pair 0xFF 8), [0x00]) ∧
    specLength 0xA1 = some 3 ∧ specLength 0xFF = some 1 ∧ specLength 0x0E = none := ⟨rfl, rfl, rfl, rfl, rfl⟩

/-- StepRunsTheDecodedInstruction: at the reset state, and across the end of the address space. -/
theorem test_witness_step_runs :
    (State.reset.run = .running ∧ Instr.wf (.noop .imm8) = true ∧
      ∀ (n : Nat) (v : Byte), (encode (.noop .imm8))[n]? = some v →
        memRead State.reset (State.reset.pc + BitVec.ofNat 16 n) = .ok v) ∧
    (let s : State := { code [0x2A] with pc := 0xFFFF, stack := [(0x2DFF, 1)] };
      s.run = .running ∧ encode (.lda (.imm8 0x2A)) = [1, 0x2A] ∧ memRead s 0xFFFF = .ok 1 ∧
        memRead s (0xFFFF + BitVec.ofNat 16 1) = .ok 0x2A) := by
  refine ⟨⟨rfl, rfl, fun n v h => ?_⟩, rfl, rfl, by decide +kernel, by decide +kernel⟩
  cases n with
  | zero => cases h; decide +kernel
  | succ n => simp [encode, encodeN] at h

/-- OnlyRunningSteps. -/
theorem test_witness_not_running :
    State.run { State.reset with run := .halted } = .halted ∧
    State.run { State.reset with run := .faulted .load } = .faulted .load := ⟨rfl, rfl⟩

/-- FetchFaultsComeInOrder, the five clauses. -/
theorem test_witness_fetch_faults :
    (let s := codeAt 0x4000 []; s.run = .running ∧ memRead s s.pc = .error (.singleBankAccess 0x4000)) ∧
    (memRead (code [0x0E]) 0 = .ok 0x0E ∧ 13 < (0x0E : Byte).toNat % 32 ∧ (0x0E : Byte) ≠ 0xFF) ∧
    (let s := codeAt 0x3FFF [0x01];
      memRead s s.pc = .ok 0x01 ∧ operandBytes 0x01 = 1 ∧ memRead s (s.pc + 1) = .error (.singleBankAccess 0x4000)) ∧
    (let s := code [0xA1, 0x08];
      memRead s s.pc = .ok 0xA1 ∧ operandBytes 0xA1 = 2 ∧ (0xA1 : Byte).toNat / 32 = 5 ∧ memRead s (s.pc + 1) = .ok 8) ∧
    (let s := codeAt 0x3FFE [0xA1, 0x07];
      memRead s s.pc = .ok 0xA1 ∧ memRead s (s.pc + 1) = .ok 7 ∧ memRead s (s.pc + 2) = .error (.singleBankAccess 0x4000)) :=
  by
  refine ⟨⟨?_, ?_⟩, ⟨?_, ?_, ?_⟩, ⟨?_, ?_, ?_⟩, ⟨?_, ?_, ?_, ?_⟩, ⟨?_, ?_, ?_⟩⟩ <;> decide +kernel

/-- PlacedInstructionRuns, EveryStepKeepsTheInvariant, StepKeepsTheHeader. -/
theorem test_witness_invariant_step :
    State.reset.inv = true ∧ decodeTableWord 16 0xFF03 = some (.sar (.imm8 0xFF)) ∧ completes (step State.reset) = true :=
  ⟨rfl, rfl, rfl⟩

/-- ResetMeetsTheInvariant: a content with a byte at its last offset. -/
theorem test_witness_reset_content :
    Memory.wf [(0, 1), (0x6FFF, 0xFF)] = true ∧ Memory.within (cartOf 1 1).contentLength [(0, 1), (0x6FFF, 0xFF)] = true :=
  by decide +kernel

/-- FaultRecordsAreAsSpecified: a fault of each phase, the second after a Cpu step that left the pc at 3. -/
theorem test_witness_faults :
    faultIs (step (code [0x0F])) (.cpu (.unknownOpcode 0x0F) 0 0) = true ∧
    nextIs (cpuStep (banks requesting 1 0)) (fun u => decide (u.io.read 0 = 1) && decide (u.pc = 3)) = true ∧
    faultIs (step (banks requesting 1 0)) (.render (.contentOutOfRange 0xA100 0x4000) 3 3) = true := ⟨rfl, rfl, rfl⟩

/-- ReadAfterWrite and ReadsGoThroughExactlyWhenReadable: writable and readable addresses at the ends of the regions. -/
theorem test_witness_accessible :
    ([0x0000, 0x3FFF, 0x8000, 0x80FF, 0x8100, 0xA0FF, 0xD100, 0xD36A, 0xD36B, 0xFFFF] : List Word).all
      (fun a => decide (Writable State.reset a)) = true ∧
    ([0x3FFF, 0x8000, 0xA100, 0xD0FF, 0xD36A, 0xD36B, 0xFFFF] : List Word).all (fun a => decide (Readable State.reset a)) = true ∧
    ([0x4000, 0x7FFF] : List Word).all
      (fun a => decide (Writable (banks State.reset 2 0) a) && decide (Readable (banks State.reset 2 0) a)) = true :=
  ⟨rfl, rfl, rfl⟩

/-- ReadAfterWrite and ReadsGoThroughExactlyWhenReadable: addresses that are not, and the aliases of R50 at both ends. -/
theorem test_witness_inaccessible :
    ([0x4000, 0x7FFF, 0xA100, 0xD0FF] : List Word).all (fun a => !decide (Writable State.reset a)) = true ∧
    ([0x4000, 0x7FFF] : List Word).all (fun a => !decide (Readable State.reset a)) = true ∧
    decide (Writable (banks State.reset 0 1) 0x3000) = false ∧ decide (Readable (banks State.reset 0 1) 0x3000) = false ∧
    decide (Readable (banks State.reset 1 0) 0xA100) = false ∧
    backingOf 0xA100 = backingOf 0x4000 ∧ backingOf 0xD0FF = backingOf 0x6FFF := ⟨rfl, rfl, rfl, rfl, rfl, rfl, rfl⟩

/-- WriteChangesOneByte. -/
theorem test_witness_write : memWrite State.reset 0x8100 7 = .ok { State.reset with ram := [(0, 7)] } := rfl

/-- ArraysAreReadAndWrittenInPlace and ContentWindowsAndDescriptors: both ends of each range. -/
theorem test_witness_ranges :
    memWrite State.reset 0x80FF 7 = .ok { State.reset with io := [(0xFF, 7)] } ∧
    memWrite State.reset 0xA0FF 7 = .ok { State.reset with ram := [(0x1FFF, 7)] } ∧
    memWrite State.reset 0xD36A 7 = .ok { State.reset with desc := [(618, 7)] } ∧
    memWrite State.reset 0xD36B 7 = .ok { State.reset with stack := [(0x16B, 7)] } ∧
    memWrite State.reset 0xFFFF 7 = .ok { State.reset with stack := [(0x2DFF, 7)] } ∧
    memWrite State.reset 0x3FFF 7 = .ok { State.reset with content := [(0x3FFF, 7)] } ∧
    memWrite State.reset 0xD0FF 7 = .error (.readOnlyWrite 0xD0FF) ∧
    (0x3FFF < State.reset.cart.contentLength ∧ 0x6FFF < State.reset.cart.contentLength) :=
  by
  refine ⟨?_, ?_, ?_, ?_, ?_, ?_, ?_, ?_⟩ <;> decide +kernel

/-- SwitchableBankIsRawIndexed: one bank with the pc in the bank, one byte and two bytes below it, and two banks. -/
theorem test_witness_switchable_bank :
    State.reset.cart.romBanks.toNat ≤ 1 ∧ (codeAt 0x7FFF []).run = .running ∧ (codeAt 0x7FFF []).pc = 0x7FFF ∧
    memRead (codeAt 0x3FFF [0x01]) 0x3FFF = .ok 1 ∧ 1 ≤ operandBytes 0x01 ∧ (0x3FFF : Word) + 1 = 0x4000 ∧
    memRead (codeAt 0x3FFE [0xA1, 0x07]) 0x3FFE = .ok 0xA1 ∧ memRead (codeAt 0x3FFE [0xA1, 0x07]) 0x3FFF = .ok 7 ∧
    operandBytes 0xA1 = 2 ∧ (0x3FFE : Word) + 2 = 0x4000 ∧ 2 ≤ (banks State.reset 2 0).cart.romBanks.toNat := by
  refine ⟨?_, ?_, ?_, ?_, ?_, ?_, ?_, ?_, ?_, ?_, ?_⟩ <;> decide +kernel

/-- VideoWindowAliasesTheSwitchableBank: the first and the last j, two banks and one. -/
theorem test_witness_alias :
    (banks State.reset 2 1).inv = true ∧ 2 ≤ (banks State.reset 2 1).cart.romBanks.toNat ∧ State.reset.inv = true ∧
    State.reset.cart.romBanks.toNat ≤ 1 ∧ 0 < 0x3000 ∧ 0x2FFF < 0x3000 ∧
    memWrite State.reset 0x0000 7 = .ok { State.reset with content := [(0, 7)] } :=
  by
  refine ⟨?_, ?_, ?_, ?_, ?_, ?_, ?_⟩ <;> decide +kernel

/-- MemoryPairAndPcOperands: a readable and an unreadable address, and indices on both sides of 8. -/
theorem test_witness_wide_operands :
    memRead State.reset 0x8100 = .ok 0 ∧ memRead State.reset 0x4000 = .error (.singleBankAccess 0x4000) ∧
    (7 : Byte).toNat < 8 ∧ 8 ≤ (8 : Byte).toNat := ⟨rfl, rfl, by decide, by decide⟩

/-- OperandsResolveExactlyWhenReady, LdaLoadsTheLowByte, SamStoresR0, SarStoresIntoTheIndexedRegister, PshStoresAtSpThenDecrements,
PopLoadsTheIndexedRegister, CmpSetsZeroOnEquality, AddSetsCarryFromR0Before, AndMasksR0, OrMergesIntoR0, ShrShiftsR0Right,
ShlShiftsR0Left: an operand that is ready and one whose resolution faults. -/
theorem test_witness_operand :
    OperandReady State.reset (.pair 7 7) = true ∧ OperandReady State.reset (.mem16 0xFFFF) = true ∧
    OperandReady State.reset (.pair 7 8) = false ∧
    resolve State.reset (.pair 7 8) = .error (.cpu (.badRegisterIndex 8) 0 2) := ⟨rfl, rfl, rfl, rfl⟩

/-- SamStoresR0: a store that goes through and one that faults. -/
theorem test_witness_sam :
    resolve State.reset (.imm16 0xFFFF) = .ok 0xFFFF ∧ Writable State.reset 0xFFFF ∧ State.reset.inv = true ∧
    resolve State.reset (.imm16 0xA100) = .ok 0xA100 ∧
    memWrite State.reset 0xA100 (State.reset.reg 0) = .error (.readOnlyWrite 0xA100) := ⟨rfl, by decide, rfl, rfl, rfl⟩

/-- SarStoresIntoTheIndexedRegister and PopLoadsTheIndexedRegister: the last register and the first value that names none. -/
theorem test_witness_index :
    resolve State.reset (.imm8 7) = .ok 7 ∧ (7 : Word).toNat < 8 ∧ resolve State.reset (.imm8 8) = .ok 8 ∧ 8 ≤ (8 : Word).toNat ∧
    Operand.imm8 7 ≠ .pc ∧ Readable State.reset (State.reset.sp + 1) ∧
    memRead { State.reset with sp := 0x3FFF } (0x3FFF + 1) = .error (.singleBankAccess 0x4000) :=
  ⟨rfl, by decide, rfl, by decide, by decide, by decide, rfl⟩

/-- PshStoresAtSpThenDecrements and PopPcGoesOnPastThePoppedByte: sp where the access goes through and where it faults. -/
theorem test_witness_stack :
    resolve State.reset .pc = .ok 0 ∧ Writable State.reset State.reset.sp ∧
    memWrite { State.reset with sp := 0xD0FF } 0xD0FF 0 = .error (.readOnlyWrite 0xD0FF) ∧
    Readable State.reset (State.reset.sp + 1) ∧
    memRead { State.reset with sp := 0x7FFE } (0x7FFE + 1) = .error (.singleBankAccess 0x7FFF) := ⟨rfl, by decide, rfl, by decide, rfl⟩

/-- IllegalOpcodesFault and IllegalJumpConditionsFault. -/
theorem test_witness_stops : Instr.stopCode (.unknown14 .pc) = some 1 ∧ encode (.jmpM7 0) = [0xE4, 0] := ⟨rfl, rfl⟩

/-- PcAfterEveryInstruction, OnlyCompareAndAluWriteFlags, OnlyTheDestinationRegisterChanges, OnlyStackInstructionsUseSp,
OnlySamAndPshStore, NoInstructionTouchesTheRest: an instruction of each clause that completes. -/
theorem test_witness_completions :
    ([.halt, .noop .pc, .jmp 0, .jz 0, .jnz 0, .popPc, .not .reg, .lda (.imm8 1), .sam (.imm8 0), .sar (.imm8 7), .psh .pc,
      .pop (.imm8 7), .cmp .carry, .add (.reg 7), .and (.reg 7), .or .pc, .shr .carry, .shl .carry] : List Instr).all
        (fun i => i.wf && completes (exec i State.reset)) = true ∧
    resolve State.reset (.imm8 7) = .ok 7 ∧ resolve State.reset (.imm8 0) = .ok 0 := ⟨rfl, rfl, rfl⟩

/-- HiddenStateIsNeverObserved: two states that differ in everything hidden, and in nothing else. -/
theorem test_witness_hidden :
    let t : State := { State.reset with fb := [(0, 7)], flags := 0xFC, cart := { State.reset.cart with entry := 1, targetFps := 60 } }
    hide State.reset = hide t ∧ State.reset ≠ t := ⟨rfl, by decide⟩

/-- RefreshTouchesOnlyItsOwn, RefreshDrawsTheComposite, FramebufferHoldsPaletteIndices, RefreshFaultsExactlyWithoutTileData. -/
theorem test_witness_refresh :
    State.reset.io.read 0 ≠ 1 ∧ State.reset.io.wf = true ∧ (∃ t, refreshService State.reset = .next t) ∧
    State.io { State.reset with io := [(0, 1)] } = [(0, 1)] ∧ Memory.read [(0, 1)] 0 = 1 ∧
    (banks State.reset 1 0).cart.contentLength = 0x4000 ∧ (banks State.reset 0 2).cart.contentLength = 0x6000 :=
  ⟨by decide, rfl, refresh_of_reset, rfl, rfl, rfl, rfl⟩

/-- PixelsAreThreeBitsOfTheWindow and PixelsByTileRow: the first and the last pixel of a tile. -/
theorem test_witness_pixels : (tile [7]).length = 24 ∧ 0 < 64 ∧ 63 < 64 ∧ 0 < 8 ∧ 7 < 8 := by decide

/-- LoadPlacesTheCartridge: a content of the right length and one a byte short. -/
theorem test_witness_load :
    (List.replicate 12288 (7 : Byte)).length = (cartOf 0 1).contentLength ∧
    (List.replicate 12287 (7 : Byte)).length ≠ (cartOf 0 1).contentLength := by
  rw [List.length_replicate, List.length_replicate]
  decide

/-- SnapshotIsUsedOnlyByARefresh and SnapshotBitsAreTheButtons: a step that refreshes, and one that does not. -/
theorem test_witness_snapshot :
    requesting.inv = true ∧ requesting.run = .running ∧
    (∃ t, systemStep aAndStart requesting = .ok t ∧ t.refreshes = requesting.refreshes + 1) ∧
    State.reset.inv = true ∧ systemStep 0x42 State.reset = .ok { State.reset with pc := 1 } :=
  ⟨rfl, rfl, systemStep_of_requesting, rfl, rfl⟩

/-- The table of R31 (spec/10_state.md section 7): A and Start, then every button, with either bit 6. -/
theorem test_snapshot_bits :
    snapshotOf false [.a, .start] = 0x81 ∧ snapshotOf false [.b, .up, .right, .down, .left, .select] = 0xBE ∧
    snapshotOf true [] = 0x40 := ⟨rfl, rfl, rfl⟩

end Sys2Proof.Machine.Tests
end

namespace Sys2Proof.Machine

/-! The jumps of spec 42_jump.md: each is `jumpIf` with its own condition, so `jumpIf_eq` gives its whole next state. -/

/-- R96. -/
theorem exec_jmp (t : Byte) (s : State) : exec (.jmp t) s = .next { s with pc := t.zext16 } :=
  jumpIf_eq true t s

/-- R97. -/
theorem exec_jz (t : Byte) (s : State) :
    exec (.jz t) s = .next { s with pc := if s.flagZ = true then t.zext16 else s.pc + 2 } :=
  jumpIf_eq s.flagZ t s

/-- R98: JNZ jumps on the negated Z flag. -/
theorem exec_jnz (t : Byte) (s : State) :
    exec (.jnz t) s = .next { s with pc := if s.flagZ = false then t.zext16 else s.pc + 2 } := by
  have taken : exec (.jnz t) s = .next { s with pc := if !s.flagZ then t.zext16 else s.pc + 2 } :=
    jumpIf_eq (!s.flagZ) t s
  simpa only [Bool.not_eq_true'] using taken

/-- Settles O30: the encodings are the encoder's own equations, the next states those of the three jumps. -/
theorem jumpsGoToTheTargetOrOn : Obligations.JumpsGoToTheTargetOrOn := by
  intro t s
  exact ⟨rfl, rfl, rfl, exec_jmp t s, exec_jz t s, exec_jnz t s⟩

end Sys2Proof.Machine

namespace Sys2Proof.Machine

/-! ADD and AND of spec 44_compare_alu.md. Both resolve an operand, put a result into R0 with Z and N, and advance; the lemmas
before them say when an operand resolves, which byte begins the instruction and what the narrowed result is. -/

/-! ### Operands that resolve -/

theorem contentAt_of_lt {s : State} {k : Nat} (h : k < s.cart.contentLength) (a : Word) :
    contentAt s k a = .ok (s.content.read k) := by
  simp [contentAt, h]

/-- R47: a read of a readable address succeeds, in every region. -/
theorem memRead_of_readable {s : State} {a : Word} (h : Readable s a) : ∃ b, memRead s a = .ok b := by
  obtain ⟨hfixed, hswitch, hvideo⟩ := h
  have hrange := regionOf_range a
  unfold memRead
  cases hreg : regionOf a <;> simp only [hreg] at hrange ⊢
  case fixedBank =>
    have hlen := hfixed hrange
    exact ⟨_, contentAt_of_lt (by omega) a⟩
  case switchBank =>
    have hbanks := hswitch hrange.1 hrange.2
    have hlen : a.toNat < s.cart.contentLength := by unfold Header.contentLength; omega
    rw [if_neg (by omega)]
    exact ⟨_, contentAt_of_lt hlen a⟩
  case video => exact ⟨_, contentAt_of_lt (hvideo hrange.1 hrange.2) a⟩
  case io => exact ⟨_, rfl⟩
  case ram => exact ⟨_, rfl⟩
  case desc => exact ⟨_, rfl⟩
  case stack => exact ⟨_, rfl⟩

theorem readOperand_of_readable {s : State} {a : Word} (n : Nat) (h : Readable s a) :
    ∃ v, readOperand s n a = .ok v := by
  obtain ⟨b, hb⟩ := memRead_of_readable h
  exact ⟨b.zext16, by simp only [readOperand, afterBytes, hb]⟩

theorem checkIndex_zext16_of_lt {i : Byte} (h : i.toNat < 8) : checkIndex i.zext16 = .ok ⟨i.toNat, h⟩ := by
  have hi : i.zext16.toNat < 8 := by rwa [toNat_zext16]
  simp only [checkIndex_of_lt hi, toNat_zext16]

theorem regOperand_of_lt (s : State) {i : Byte} (h : i.toNat < 8) :
    regOperand s i = .ok (s.reg ⟨i.toNat, h⟩).zext16 := by
  simp only [regOperand, checkIndex_zext16_of_lt h, afterBytes]

theorem pairOperand_of_lt (s : State) {hi lo : Byte} (hhi : hi.toNat < 8) (hlo : lo.toNat < 8) :
    pairOperand s hi lo = .ok ((s.reg ⟨hi.toNat, hhi⟩).pairWith (s.reg ⟨lo.toNat, hlo⟩)) := by
  simp only [pairOperand, checkIndex_zext16_of_lt hhi, checkIndex_zext16_of_lt hlo, afterBytes]

/-- R80 to R89: a ready operand has a value, in every mode. -/
theorem resolve_of_ready {s : State} {o : Operand} (h : OperandReady s o = true) : ∃ v, resolve s o = .ok v := by
  cases o
  case imm8 v => exact ⟨_, rfl⟩
  case mem8 a => exact readOperand_of_readable 1 (of_decide_eq_true h)
  case reg i => exact ⟨_, regOperand_of_lt s (of_decide_eq_true h)⟩
  case imm16 v => exact ⟨_, rfl⟩
  case mem16 a => exact readOperand_of_readable 2 (of_decide_eq_true h)
  case pair hi lo =>
    obtain ⟨hhi, hlo⟩ : hi.toNat < 8 ∧ lo.toNat < 8 := by simpa [OperandReady] using h
    exact ⟨_, pairOperand_of_lt s hhi hlo⟩
  case carry => exact ⟨_, rfl⟩
  case pc => exact ⟨_, rfl⟩

/-! ### Instruction bytes, results and the carry -/

/-- R61: the instruction byte as a number. -/
theorem headByte_eq_ofNat (m : BitVec 3) (op : BitVec 5) :
    headByte m op = BitVec.ofNat 8 (op.toNat + 0x20 * m.toNat) := by
  revert m op; decide

theorem encodeM_head? (op : BitVec 5) (o : Operand) :
    (encodeM op o).head? = some (BitVec.ofNat 8 (op.toNat + 0x20 * o.mode.bits.toNat)) :=
  congrArg some (headByte_eq_ofNat o.mode.bits op)

/-- D1: a sum narrowed to R0 is the sum modulo 256. -/
theorem toNat_low8_add (r : Byte) (v : Word) : (Word.low8 (r.zext16 + v)).toNat = (r.toNat + v.toNat) % 256 := by
  rw [BitVec.toNat_setWidth, BitVec.toNat_add, toNat_zext16]
  omega

/-- D1: a conjunction narrowed to R0 is the conjunction modulo 256. -/
theorem toNat_low8_and (r : Byte) (v : Word) : (Word.low8 (r.zext16 &&& v)).toNat = (r.toNat &&& v.toNat) % 256 := by
  rw [BitVec.toNat_setWidth, BitVec.toNat_and, toNat_zext16]

@[simp] theorem State.setC_flagC (s : State) (b : Bool) : (s.setC b).flagC = b :=
  getLsbD_putBit s.flags 1 b 1 (by decide)

theorem State.setC_flags_other (s : State) (b : Bool) {k : Nat} (h : k ≠ 1) :
    (s.setC b).flags.getLsbD k = s.flags.getLsbD k :=
  (getLsbD_putBit s.flags 1 b k (by decide)).trans (if_neg h)

/-! ### The two instructions -/

/-- R105. -/
theorem exec_add_of_resolve {s : State} {o : Operand} {v : Word} (h : resolve s o = .ok v) :
    exec (.add o) s = .next { (s.setC (addCarry (s.reg 0))).setResult (Word.low8 ((s.reg 0).zext16 + v)) with
      pc := s.pc + BitVec.ofNat 16 (1 + o.bytes) } :=
  (withOperand_ok h _).trans (finish_eq _ _)

/-- R106. -/
theorem exec_and_of_resolve {s : State} {o : Operand} {v : Word} (h : resolve s o = .ok v) :
    exec (.and o) s = .next { s.setResult (Word.low8 ((s.reg 0).zext16 &&& v)) with
      pc := s.pc + BitVec.ofNat 16 (1 + o.bytes) } :=
  (withOperand_ok h _).trans (finish_eq _ _)

/-- Settles O36: the result writes Z and N over the flags whose C was set from R0 before the add, and keeps that C. -/
theorem addSetsCarryFromR0Before : Obligations.AddSetsCarryFromR0Before := by
  intro o s
  refine ⟨encodeM_head? 8 o, fun hready => ?_, fun f hf => withOperand_error hf _⟩
  obtain ⟨v, hv⟩ := resolve_of_ready hready
  obtain ⟨hZ, hN, hkept⟩ :=
    setResult_flags (s.setC (addCarry (s.reg 0))) (Word.low8 ((s.reg 0).zext16 + v))
  refine ⟨v, _, _, hv, toNat_low8_add (s.reg 0) v, exec_add_of_resolve hv, ?_, hZ, hN, fun k hk => ?_, rfl⟩
  · exact (hkept 1 (by decide) (by decide)).trans (s.setC_flagC _)
  · exact (hkept k (by omega) (by omega)).trans (s.setC_flags_other _ (by omega))

/-- Settles O37: Z and N are the result's, and the result keeps every other flag bit. -/
theorem andMasksR0 : Obligations.AndMasksR0 := by
  intro o s
  refine ⟨encodeM_head? 9 o, fun hready => ?_, fun f hf => withOperand_error hf _⟩
  obtain ⟨v, hv⟩ := resolve_of_ready hready
  obtain ⟨hZ, hN, hkept⟩ := setResult_flags s (Word.low8 ((s.reg 0).zext16 &&& v))
  exact ⟨v, _, _, hv, toNat_low8_and (s.reg 0) v, exec_and_of_resolve hv, hZ, hN,
    fun k hk => hkept k (by omega) (by omega), rfl⟩

end Sys2Proof.Machine

namespace Sys2Proof.Machine

/-! Pixel unpacking of spec 47_tile_renderer.md (R115): the window is the pair of two bytes, and a pixel is a quotient of its
value modulo 8. -/

/-- The 16-bit window with its first byte low is the pair `hi:lo` of R10. -/
theorem zext16_or_shiftLeft_eq_pairWith (lo hi : Byte) : lo.zext16 ||| (hi.zext16 <<< 8) = hi.pairWith lo := by
  have hlt := hi.isLt
  apply BitVec.eq_of_toNat_eq
  rw [BitVec.toNat_or, BitVec.toNat_shiftLeft, toNat_zext16, toNat_zext16, BitVec.toNat_append, Nat.or_comm,
    Nat.mod_eq_of_lt (by rw [Nat.shiftLeft_eq]; omega)]

/-- The low three bits of a shifted word, narrowed to a byte, as arithmetic on its value. -/
theorem toNat_low8_shiftRight_and_seven (w : Word) (k : Nat) :
    (Word.low8 ((w >>> k) &&& 7)).toNat = w.toNat / 2 ^ k % 8 := by
  have hmask : ((w >>> k) &&& 7).toNat = w.toNat / 2 ^ k % 8 := by
    rw [BitVec.toNat_and, BitVec.toNat_ushiftRight, Nat.shiftRight_eq_div_pow]
    exact Nat.and_two_pow_sub_one_eq_mod _ 3
  rw [BitVec.toNat_setWidth, hmask]
  omega

/-- Settles O52: the window's value is that of its two bytes, and shifting and masking it divides and takes the remainder. -/
theorem pixelsAreThreeBitsOfTheWindow : Obligations.PixelsAreThreeBitsOfTheWindow := by
  intro tile i _ _
  unfold pixelOf
  rw [toNat_low8_shiftRight_and_seven, zext16_or_shiftLeft_eq_pairWith, toNat_pairWith, Nat.add_comm, Nat.mul_comm 256,
    apply_ite BitVec.toNat]
  rfl

end Sys2Proof.Machine

namespace Sys2Proof

/-! The encoder and the decoder of spec 30_encoding.md undo each other. Both directions rest on the first byte: `decode` reads as
many operand bytes as it says, and `encode` of the instruction they make writes the same bytes again. -/

/-! ### From an instruction to its bytes and back -/

/-- R65, format M: the bytes of an operand instruction decode to the instruction its opcode makes of that operand. -/
theorem decode_encodeM {op : BitVec 5} {o : Operand} {i : Instr} (h31 : op.toNat ≠ 31)
    (hbytes : operandBytesOfFields op o.mode = o.bytes)
    (hinstr : ∀ x y, operandOf o.mode x y = o → instrOfFields op o.mode x y = i) (rest : List Byte) :
    decode (encodeM op o ++ rest) = .ok (i, rest) := by
  have hb : operandBytes (headByte o.mode.bits op) = o.bytes := (operandBytes_headByte _ _ h31).trans hbytes
  have hi : ∀ x y, operandOf o.mode x y = o → instrOf (headByte o.mode.bits op) x y = i := fun x y e =>
    (instrOf_headByte _ _ x y h31).trans (hinstr x y e)
  rcases operandOf_stream o with ⟨hn, hs, ho⟩ | ⟨hn, x, hs, ho⟩ | ⟨hn, x, y, hs, ho⟩ <;>
    simp only [encodeM, hs, List.cons_append, List.nil_append]
  · rw [decode_zero (hb.trans hn), hi 0 0 (ho 0 0)]
  · rw [decode_one (hb.trans hn), hi x 0 (ho 0)]
  · rw [decode_two (hb.trans hn), hi x y ho]

/-- R65, format N: the one byte of an instruction whose mode is ignored decodes to it. -/
theorem decode_encodeN {op : BitVec 5} {m : Mode} (h31 : op.toNat ≠ 31) (hbytes : operandBytesOfFields op m = 0)
    (rest : List Byte) : decode (encodeN op m ++ rest) = .ok (instrOfFields op m 0 0, rest) := by
  have hb : operandBytes (headByte m.bits op) = 0 := (operandBytes_headByte _ _ h31).trans hbytes
  simp only [encodeN, List.cons_append, List.nil_append, decode_zero hb, instrOf_headByte _ _ _ _ h31]

theorem Operand.mode_eq_pc {o : Operand} : o.mode = .pc ↔ o = .pc := by
  cases o <;> simp [Operand.mode]

/-- R101: below mode 7, opcode 6 is POP of the operand. -/
theorem popOf_of_ne_pc {m : Mode} (h : m ≠ .pc) (x y : Byte) : popOf m x y = .pop (operandOf m x y) := by
  cases m
  case pc => exact absurd rfl h
  all_goals rfl

/-- Settles O1: each row of the opcode table is of format M, of format N or a byte of its own. -/
theorem decodeUndoesEncode : Obligations.DecodeUndoesEncode := by
  intro i rest hwf
  cases i with
  | halt => rfl
  | noop m => exact decode_encodeN (by decide) rfl rest
  | lda o => exact decode_encodeM (by decide) rfl (fun _ _ => congrArg Instr.lda) rest
  | sam o => exact decode_encodeM (by decide) rfl (fun _ _ => congrArg Instr.sam) rest
  | sar o => exact decode_encodeM (by decide) rfl (fun _ _ => congrArg Instr.sar) rest
  | jmp t | jz t | jnz t | jmpM3 t | jmpM4 t | jmpM5 t | jmpM6 t | jmpM7 t => rfl
  | psh o => exact decode_encodeM (by decide) rfl (fun _ _ => congrArg Instr.psh) rest
  | popPc => rfl
  | pop o =>
    have hmode : o.mode ≠ .pc := fun e => of_decide_eq_true hwf (Operand.mode_eq_pc.1 e)
    exact decode_encodeM (op := 6) (by decide) rfl
      (fun x y e => (popOf_of_ne_pc hmode x y).trans (congrArg Instr.pop e)) rest
  | cmp o => exact decode_encodeM (by decide) rfl (fun _ _ => congrArg Instr.cmp) rest
  | add o => exact decode_encodeM (by decide) rfl (fun _ _ => congrArg Instr.add) rest
  | and o => exact decode_encodeM (by decide) rfl (fun _ _ => congrArg Instr.and) rest
  | or o => exact decode_encodeM (by decide) rfl (fun _ _ => congrArg Instr.or) rest
  | not m => exact decode_encodeN (by decide) rfl rest
  | shr o => exact decode_encodeM (by decide) rfl (fun _ _ => congrArg Instr.shr) rest
  | shl o => exact decode_encodeM (by decide) rfl (fun _ _ => congrArg Instr.shl) rest
  | unknown31 m =>
    cases m
    case pc => cases hwf
    all_goals rfl
  | unknown14 m | unknown15 m | unknown16 m | unknown17 m | unknown18 m | unknown19 m | unknown20 m | unknown21 m
  | unknown22 m | unknown23 m | unknown24 m | unknown25 m | unknown26 m | unknown27 m | unknown28 m | unknown29 m
  | unknown30 m => exact decode_encodeN (by decide) rfl rest

/-! ### From bytes to an instruction and back -/

/-- The opcodes whose mode selects an operand, but POP's (R62, R63). -/
abbrev operandOpcodes : List (BitVec 5) := [1, 2, 3, 5, 7, 8, 9, 10, 12, 13]

/-- The opcodes whose mode is ignored: NOOP, NOT and the illegal ones, but 31, which shares its mode 7 with HALT (R70, R75). -/
abbrev bareOpcodes : List (BitVec 5) := [0, 11, 14, 15, 16, 17, 18, 19, 20, 21, 22, 23, 24, 25, 26, 27, 28, 29, 30]

/-- The 32 opcodes: 4 is the jumps', 6 is POP's. -/
theorem opcode_cases (op : BitVec 5) : op ∈ operandOpcodes ∨ op ∈ bareOpcodes ∨ op = 4 ∨ op = 6 ∨ op = 31 := by
  revert op; decide

theorem encodeM_operandOf (op : BitVec 5) (m : Mode) (x y : Byte) :
    encodeM op (operandOf m x y) = headByte m.bits op :: [x, y].take m.bytes := by
  rw [encodeM, operandOf_mode, stream_operandOf]

/-- R62, R65: the instruction of two fields is encoded with them in its first byte and the operand bytes they take. -/
theorem encode_instrOfFields (op : BitVec 5) (m : Mode) (x y : Byte) :
    encode (instrOfFields op m x y) = headByte m.bits op :: [x, y].take (operandBytesOfFields op m) := by
  rcases opcode_cases op with hop | hop | rfl | rfl | rfl
  · fin_cases hop <;> exact encodeM_operandOf _ m x y
  · fin_cases hop <;> rfl
  · cases m <;> rfl
  · by_cases hm : m = .pc
    · rw [hm]; rfl
    · exact (congrArg encode (popOf_of_ne_pc hm x y)).trans (encodeM_operandOf 6 m x y)
  · rfl

/-- R68: every byte but HALT's has fields of a well-formed instruction. -/
theorem wf_instrOfFields (op : BitVec 5) (m : Mode) (x y : Byte) (h : headByte m.bits op ≠ 0xFF) :
    (instrOfFields op m x y).wf = true := by
  rcases opcode_cases op with hop | hop | rfl | rfl | rfl
  · fin_cases hop <;> rfl
  · fin_cases hop <;> rfl
  · cases m <;> rfl
  · cases m <;> rfl
  · exact decide_eq_true fun e => h (by rw [e]; rfl)

theorem headByte_bits_modeOf (b : Byte) : headByte (modeOf (modeBitsOf b)).bits (opcodeOf b) = b := by
  rw [bits_modeOf, headByte_fields]

/-- R66, R68: the instruction that three bytes make is encoded in the first one and those it takes of the other two. -/
theorem encode_instrOf (b x y : Byte) : encode (instrOf b x y) = b :: [x, y].take (operandBytes b) := by
  unfold instrOf operandBytes
  split
  · next h => rw [h]; rfl
  · rw [encode_instrOfFields, headByte_bits_modeOf]

theorem wf_instrOf (b x y : Byte) : (instrOf b x y).wf = true := by
  unfold instrOf
  split
  · rfl
  · next h => exact wf_instrOfFields _ _ _ _ (by rwa [headByte_bits_modeOf])

/-- Everything a successful decoding can have read: a first byte, the operand bytes it takes, and the rest. -/
theorem decode_ok {bs rest : List Byte} {i : Instr} (h : decode bs = .ok (i, rest)) :
    ∃ b x y, i = instrOf b x y ∧ bs = b :: ([x, y].take (operandBytes b) ++ rest) := by
  unfold decode at h
  split at h
  · cases h
  · next b tail =>
    split at h
    · next hb => cases h; exact ⟨b, 0, 0, rfl, by rw [hb]; rfl⟩
    · next x tail' hb => cases h; exact ⟨b, x, 0, rfl, by rw [hb]; rfl⟩
    · next x y tail' hb => cases h; exact ⟨b, x, y, rfl, by rw [hb]; rfl⟩
    · cases h

/-- Settles O2: the bytes read are those of the instruction they make. -/
theorem encodeUndoesDecode : Obligations.EncodeUndoesDecode := by
  intro bs i rest h
  obtain ⟨b, x, y, rfl, rfl⟩ := decode_ok h
  exact ⟨wf_instrOf b x y, by rw [encode_instrOf]; rfl⟩

/-! ### Lengths, samples and counts -/

/-- R66: where the spec gives a length, it is one more than the operand bytes, and where it gives none no operand byte is read. -/
theorem specLength_eq (b : Byte) :
    (∀ n, specLength b = some n → 1 + operandBytes b = n) ∧ (specLength b = none → operandBytes b = 0) := by
  have table : ∀ b : Byte, specLength b = some (1 + operandBytes b) ∨ (specLength b = none ∧ operandBytes b = 0) := by
    decide +kernel
  rcases table b with h | ⟨h, h0⟩ <;> simp [h]
  exact h0

/-- Settles O3: the bytes are those `encode_instrOf` gives, and the 256 first bytes agree with the spec's Length. -/
theorem lengthsFollowTheFirstByte : Obligations.LengthsFollowTheFirstByte := by
  intro b x y
  have hle := operandBytes_le b
  refine ⟨by rw [encode_instrOf]; rfl, ?_, specLength_eq b⟩
  rw [encode_instrOf, List.length_cons, List.length_take, List.length_cons, List.length_singleton]
  omega

/-- Settles O4: each sample is decoded by its first byte. -/
theorem sampleBytesDecode : Obligations.SampleBytesDecode :=
  ⟨rfl, rfl, rfl, rfl, rfl, rfl, rfl, rfl, rfl, rfl, rfl, rfl, rfl⟩

/-- Settles O5: the 256 first bytes, counted. -/
theorem firstBytesAreCounted : Obligations.FirstBytesAreCounted := by
  unfold Obligations.FirstBytesAreCounted
  decide +kernel

end Sys2Proof

namespace Sys2Proof.Machine

/-! The invariant taken apart, so that proofs name the part they use. -/

/-- The parts of `State.inv` but the pending refresh: each store canonical and within its size (R24, R25), the framebuffer one of
palette indices (R26), FLAGS bits 3..7 zero (R20). -/
structure State.Sound (s : State) : Prop where
  contentWf : s.content.wf = true
  contentWithin : s.content.within s.cart.contentLength = true
  ioWf : s.io.wf = true
  ioWithin : s.io.within 256 = true
  ramWf : s.ram.wf = true
  ramWithin : s.ram.within 8192 = true
  descWf : s.desc.wf = true
  descWithin : s.desc.within 619 = true
  stackWf : Memory.wfFrom 0x16B s.stack = true
  stackWithin : s.stack.within 11776 = true
  fb : s.fb.isFramebuffer = true
  flags : s.flags.toNat < 8

theorem inv_iff {s : State} : s.inv = true ↔ s.Sound ∧ s.io.read 0x00 ≠ 1 := by
  constructor
  · intro h
    simp only [State.inv, Bool.and_eq_true, decide_eq_true_eq, and_assoc] at h
    obtain ⟨hc, hcw, hi, hiw, hr, hrw, hd, hdw, hs, hsw, hf, hfw, hfp, hflags, hpending⟩ := h
    exact ⟨⟨hc, hcw, hi, hiw, hr, hrw, hd, hdw, hs, hsw, by simp [Memory.isFramebuffer, hf, hfw, hfp], hflags⟩, hpending⟩
  · rintro ⟨⟨hc, hcw, hi, hiw, hr, hrw, hd, hdw, hs, hsw, hf, hflags⟩, hpending⟩
    simp only [Memory.isFramebuffer, Bool.and_eq_true] at hf
    obtain ⟨⟨hfwf, hfwithin⟩, hpalette⟩ := hf
    simpa [State.inv, hc, hcw, hi, hiw, hr, hrw, hd, hdw, hs, hsw, hfwf, hfwithin, hpalette, hflags] using hpending

/-- Every store of the Cpu is in canonical form. -/
structure State.Canonical (s : State) : Prop where
  content : s.content.wf = true
  io : s.io.wf = true
  ram : s.ram.wf = true
  desc : s.desc.wf = true
  stack : s.stack.wf = true

theorem State.Sound.canonical {s : State} (h : s.Sound) : s.Canonical :=
  ⟨h.contentWf, h.ioWf, h.ramWf, h.descWf, Memory.wfFrom_mono h.stackWf (Nat.zero_le _)⟩

theorem canonical_of_inv {s : State} (h : s.inv = true) : s.Canonical := (inv_iff.1 h).1.canonical

end Sys2Proof.Machine

namespace Sys2Proof.Machine

/-! The address space of spec 20_memory.md as one rule for reads and one for writes: an address names a byte of backing store,
a read that goes through answers that byte, and a write that goes through replaces it. -/

/-! ### The byte of backing store an address names -/

/-- The byte of a backing store; `none` names no byte. -/
def State.byteAt (s : State) : Backing → Byte
  | .content k => s.content.read k
  | .io k => s.io.read k
  | .ram k => s.ram.read k
  | .desc k => s.desc.read k
  | .stack k => s.stack.read k
  | .none => unlistedByte

/-- The state with one byte of backing store replaced. -/
def State.putByte (s : State) (b : Backing) (v : Byte) : State :=
  match b with
  | .content k => { s with content := s.content.write k v }
  | .io k => { s with io := s.io.write k v }
  | .ram k => { s with ram := s.ram.write k v }
  | .desc k => { s with desc := s.desc.write k v }
  | .stack k => { s with stack := s.stack.write k v }
  | .none => s

@[simp] theorem State.putByte_cart (s : State) (b : Backing) (v : Byte) : (s.putByte b v).cart = s.cart := by cases b <;> rfl
@[simp] theorem State.putByte_regs (s : State) (b : Backing) (v : Byte) : (s.putByte b v).regs = s.regs := by cases b <;> rfl
@[simp] theorem State.putByte_pc (s : State) (b : Backing) (v : Byte) : (s.putByte b v).pc = s.pc := by cases b <;> rfl
@[simp] theorem State.putByte_run (s : State) (b : Backing) (v : Byte) : (s.putByte b v).run = s.run := by cases b <;> rfl

theorem State.byteAt_putByte_same {s : State} {b : Backing} (hc : s.Canonical) (hb : b ≠ .none) (v : Byte) :
    (s.putByte b v).byteAt b = v := by
  cases b with
  | content k => exact Memory.read_write_same k v hc.content
  | io k => exact Memory.read_write_same k v hc.io
  | ram k => exact Memory.read_write_same k v hc.ram
  | desc k => exact Memory.read_write_same k v hc.desc
  | stack k => exact Memory.read_write_same k v hc.stack
  | none => exact absurd rfl hb

theorem State.byteAt_putByte_other (s : State) {b c : Backing} (h : c ≠ b) (v : Byte) :
    (s.putByte b v).byteAt c = s.byteAt c := by
  cases b <;> cases c
  case content.content j k => exact Memory.read_write_other _ v (by simpa using h)
  case io.io j k => exact Memory.read_write_other _ v (by simpa using h)
  case ram.ram j k => exact Memory.read_write_other _ v (by simpa using h)
  case desc.desc j k => exact Memory.read_write_other _ v (by simpa using h)
  case stack.stack j k => exact Memory.read_write_other _ v (by simpa using h)
  all_goals rfl

theorem State.putByte_canonical {s : State} (h : s.Canonical) (b : Backing) (v : Byte) : (s.putByte b v).Canonical := by
  obtain ⟨hc, hi, hr, hd, hs⟩ := h
  cases b with
  | content k => exact ⟨Memory.write_wf k v hc, hi, hr, hd, hs⟩
  | io k => exact ⟨hc, Memory.write_wf k v hi, hr, hd, hs⟩
  | ram k => exact ⟨hc, hi, Memory.write_wf k v hr, hd, hs⟩
  | desc k => exact ⟨hc, hi, hr, Memory.write_wf k v hd, hs⟩
  | stack k => exact ⟨hc, hi, hr, hd, Memory.write_wf k v hs⟩
  | none => exact ⟨hc, hi, hr, hd, hs⟩

/-! ### Which byte that is -/

/-- The lowest address that names a byte of backing store. -/
def Backing.address : Backing → Nat
  | .content k => k
  | .io k => 0x8000 + k
  | .ram k => 0x8100 + k
  | .desc k => 0xD100 + k
  | .stack k => 0xD200 + k
  | .none => 0x10000

/-- R38 to R45: outside the video window an address names its own byte, and inside it a content byte of the switchable bank. -/
theorem backingOf_address (a : Word) :
    (backingOf a).address = if 0xA100 ≤ a.toNat ∧ a.toNat ≤ 0xD0FF then videoOffset a else a.toNat := by
  have hrange := regionOf_range a
  unfold backingOf
  cases hreg : regionOf a <;> simp only [hreg] at hrange ⊢
  case video => rw [if_pos hrange]; rfl
  case switchBank => rw [if_neg (by omega)]; rfl
  all_goals rw [if_neg (by omega), Backing.address]; omega

theorem backingOf_ne_none (a : Word) : backingOf a ≠ .none := by
  intro h
  have haddr := backingOf_address a
  have hlt := a.isLt
  simp only [h, Backing.address, videoOffset] at haddr
  split at haddr <;> omega

/-- R50: the only two addresses of one byte. -/
theorem aliases_of_backingOf_eq {a b : Word} (hne : a ≠ b) (h : backingOf a = backingOf b) :
    ∃ j, j < 0x3000 ∧ ((a.toNat = 0xA100 + j ∧ b.toNat = 0x4000 + j) ∨ (b.toNat = 0xA100 + j ∧ a.toNat = 0x4000 + j)) := by
  have haddr := congrArg Backing.address h
  have hne' : a.toNat ≠ b.toNat := fun e => hne (BitVec.eq_of_toNat_eq e)
  simp only [backingOf_address, videoOffset] at haddr
  split at haddr <;> split at haddr
  · omega
  · exact ⟨a.toNat - 0xA100, by omega, .inl ⟨by omega, by omega⟩⟩
  · exact ⟨b.toNat - 0xA100, by omega, .inr ⟨by omega, by omega⟩⟩
  · omega

/-! ### The rule for reads and the rule for writes -/

theorem contentAt_of_le {s : State} {k : Nat} (h : s.cart.contentLength ≤ k) (a : Word) :
    contentAt s k a = .error (.contentOutOfRange a k) := if_pos h

theorem contentSet_of_lt {s : State} {k : Nat} (h : k < s.cart.contentLength) (a : Word) (v : Byte) :
    contentSet s k a v = .ok (s.putByte (.content k) v) := if_neg (by omega)

theorem contentSet_of_le {s : State} {k : Nat} (h : s.cart.contentLength ≤ k) (a : Word) (v : Byte) :
    contentSet s k a v = .error (.contentOutOfRange a k) := if_pos h

/-- Two ROM banks hold every address of the switchable bank. -/
theorem lt_contentLength_of_two_banks {h : Header} (hb : 2 ≤ h.romBanks.toNat) {k : Nat} (hk : k ≤ 0x7FFF) :
    k < h.contentLength := by
  unfold Header.contentLength
  omega

/-- R47: a read that goes through answers the byte its address names. -/
theorem memRead_eq {s : State} {a : Word} (h : Readable s a) : memRead s a = .ok (s.byteAt (backingOf a)) := by
  obtain ⟨hfixed, hswitch, hvideo⟩ := h
  have hrange := regionOf_range a
  unfold memRead backingOf
  cases hreg : regionOf a <;> simp only [hreg] at hrange ⊢
  case fixedBank =>
    have hlen := hfixed hrange
    exact contentAt_of_lt (by omega) a
  case switchBank =>
    have hbanks := hswitch hrange.1 hrange.2
    rw [if_neg (by omega)]
    exact contentAt_of_lt (lt_contentLength_of_two_banks hbanks hrange.2) a
  case video => exact contentAt_of_lt (hvideo hrange.1 hrange.2) a
  all_goals rfl

/-- R47: what any other read raises. -/
theorem memRead_of_not_readable {s : State} {a : Word} (h : ¬ Readable s a) :
    memRead s a = .error
      (if 0xA100 ≤ a.toNat then .contentOutOfRange a (a.toNat - 0xA100 + 0x4000)
       else if 0x4000 ≤ a.toNat then .singleBankAccess a
       else .contentOutOfRange a a.toNat) := by
  have hrange := regionOf_range a
  unfold memRead
  cases hreg : regionOf a <;> simp only [hreg] at hrange ⊢
  case fixedBank =>
    rw [if_neg (by omega), if_neg (by omega), Nat.mod_eq_of_lt (by omega)]
    exact contentAt_of_le (by omega) a
  case switchBank =>
    rw [if_pos (by omega : s.cart.romBanks.toNat ≤ 1), if_neg (by omega), if_pos hrange.1]
  case video =>
    rw [if_pos hrange.1]
    exact contentAt_of_le (by unfold videoOffset; omega) a
  all_goals exact absurd ⟨by omega, by omega, by omega⟩ h

/-- R48: a write that goes through replaces the byte its address names. -/
theorem memWrite_eq {s : State} {a : Word} (h : Writable s a) (v : Byte) :
    memWrite s a v = .ok (s.putByte (backingOf a) v) := by
  obtain ⟨hfixed, hswitch, hvideo⟩ := h
  have hrange := regionOf_range a
  unfold memWrite backingOf
  cases hreg : regionOf a <;> simp only [hreg] at hrange ⊢
  case fixedBank =>
    have hlen := hfixed hrange
    exact contentSet_of_lt (by omega) a v
  case switchBank =>
    have hbanks := hswitch hrange.1 hrange.2
    rw [if_neg (by omega)]
    exact contentSet_of_lt (lt_contentLength_of_two_banks hbanks hrange.2) a v
  case video => exact absurd hrange hvideo
  all_goals rfl

/-- R48, R49: what any other write raises. -/
theorem memWrite_of_not_writable {s : State} {a : Word} (h : ¬ Writable s a) (v : Byte) :
    memWrite s a v = .error
      (if 0xA100 ≤ a.toNat then .readOnlyWrite a
       else if 0x4000 ≤ a.toNat then .singleBankAccess a
       else .contentOutOfRange a a.toNat) := by
  have hrange := regionOf_range a
  unfold memWrite
  cases hreg : regionOf a <;> simp only [hreg] at hrange ⊢
  case fixedBank =>
    rw [if_neg (by omega), if_neg (by omega), Nat.mod_eq_of_lt (by omega)]
    exact contentSet_of_le (by omega) a v
  case switchBank =>
    rw [if_pos (by omega : s.cart.romBanks.toNat ≤ 1), if_neg (by omega), if_pos hrange.1]
  case video => rw [if_pos hrange.1]
  all_goals exact absurd ⟨by omega, by omega, by omega⟩ h

/-- A write answers a state only where its address is writable, and that state is the rule's. -/
theorem memWrite_ok {s t : State} {a : Word} {v : Byte} (h : memWrite s a v = .ok t) :
    Writable s a ∧ t = s.putByte (backingOf a) v := by
  by_cases hw : Writable s a
  · rw [memWrite_eq hw] at h
    exact ⟨hw, (Except.ok.inj h).symm⟩
  · rw [memWrite_of_not_writable hw] at h
    cases h

theorem readable_of_writable {s : State} {a : Word} : Writable s a → Readable s a := fun ⟨hfixed, hswitch, hvideo⟩ =>
  ⟨hfixed, hswitch, fun hlo hhi => absurd ⟨hlo, hhi⟩ hvideo⟩

theorem not_writable_of_video {s : State} {a : Word} (hlo : 0xA100 ≤ a.toNat) (hhi : a.toNat ≤ 0xD0FF) : ¬ Writable s a :=
  fun ⟨_, _, hvideo⟩ => hvideo ⟨hlo, hhi⟩

/-- A read depends on the header and on the byte its address names. -/
theorem memRead_congr_byte {s t : State} {a : Word} (hcart : t.cart = s.cart)
    (hbyte : t.byteAt (backingOf a) = s.byteAt (backingOf a)) : memRead t a = memRead s a := by
  by_cases h : Readable s a
  · rw [memRead_eq h, memRead_eq (by rwa [Readable, hcart]), hbyte]
  · rw [memRead_of_not_readable h, memRead_of_not_readable (by rwa [Readable, hcart])]

/-- A writable address reads and writes the byte it names. -/
theorem access_of_writable {s : State} {a : Word} {b : Backing} (h : Writable s a) (hb : backingOf a = b) (v : Byte) :
    memRead s a = .ok (s.byteAt b) ∧ memWrite s a v = .ok (s.putByte b v) :=
  hb ▸ ⟨memRead_eq (readable_of_writable h), memWrite_eq h v⟩

/-! ### The statements about one access -/

/-- The byte written is read at every address that names it. -/
theorem memRead_putByte {s : State} {a : Word} {v : Byte} (hc : s.Canonical) (hr : Readable s a) :
    memRead (s.putByte (backingOf a) v) a = .ok v := by
  rw [memRead_eq (by rwa [Readable, State.putByte_cart]), State.byteAt_putByte_same hc (backingOf_ne_none a)]

/-- Settles O15: the two rules and the addresses of one byte. -/
theorem readAfterWrite : Obligations.ReadAfterWrite :=
  ⟨fun _ _ v hinv hw => ⟨_, memWrite_eq hw v, memRead_putByte (canonical_of_inv hinv) (readable_of_writable hw)⟩,
    fun _ _ v hw => memWrite_of_not_writable hw v,
    fun _ _ hne h => aliases_of_backingOf_eq hne h⟩

theorem memorySameBut_of_memWrite {s t : State} {a : Word} {v : Byte} (h : memWrite s a v = .ok t) : MemorySameBut s t a := by
  intro b hb
  rw [(memWrite_ok h).2]
  exact memRead_congr_byte (s.putByte_cart _ _) (s.byteAt_putByte_other hb v)

/-- Settles O16: the one byte is `backingOf a`, and a write keeps all but the stores. -/
theorem writeChangesOneByte : Obligations.WriteChangesOneByte := by
  intro s t a v h
  obtain ⟨hcart, hregs, hpc, hsp, hflags, hrun, hfb, hsnap, hcount⟩ := memWrite_frame h
  exact ⟨memorySameBut_of_memWrite h, ⟨hcart, hfb, hsnap, hcount⟩, hregs, hpc, hsp, hflags, hrun⟩

/-- Settles O17: the rule for reads. -/
theorem readsGoThroughExactlyWhenReadable : Obligations.ReadsGoThroughExactlyWhenReadable :=
  fun _ _ => ⟨fun h => ⟨_, memRead_eq h⟩, memRead_of_not_readable⟩

/-- Settles O18: which byte an address of each array names. -/
theorem arraysAreReadAndWrittenInPlace : Obligations.ArraysAreReadAndWrittenInPlace := by
  intro s a v
  refine ⟨fun hlo hhi => ?_, fun hlo hhi => ?_, fun hlo hhi => ⟨by omega, by omega, ?_⟩⟩
  · have hmask : (a &&& 0xFF).toNat = a.toNat % 0x100 := Nat.and_two_pow_sub_one_eq_mod a.toNat 8
    have hb : backingOf a = .io (a.toNat % 0x100) := by rw [backingOf, regionOf_of_range (r := .io) ⟨hlo, hhi⟩]
    rw [hmask]
    exact access_of_writable ⟨by omega, by omega, by omega⟩ hb v
  · have hb : backingOf a = .ram (a.toNat - 0x8100) := by rw [backingOf, regionOf_of_range (r := .ram) ⟨hlo, hhi⟩]
    exact access_of_writable ⟨by omega, by omega, by omega⟩ hb v
  · have hb : backingOf a = .stack (a.toNat - 0xD200) := by rw [backingOf, regionOf_of_range (r := .stack) ⟨hlo, hhi⟩]
    exact access_of_writable ⟨by omega, by omega, by omega⟩ hb v

/-- Settles O19: which byte an address of each window names, and that the video window refuses a write. -/
theorem contentWindowsAndDescriptors : Obligations.ContentWindowsAndDescriptors := by
  intro s a v
  refine ⟨fun hhi hlen => ?_, fun hlo hhi => ⟨fun hlen => ?_, ?_⟩, fun hlo hhi => ?_⟩
  · have hb : backingOf a = .content a.toNat := by
      rw [backingOf, regionOf_of_range (r := .fixedBank) hhi, Nat.mod_eq_of_lt (by omega)]
    exact access_of_writable ⟨by omega, by omega, by omega⟩ hb v
  · have hb : backingOf a = .content (videoOffset a) := by rw [backingOf, regionOf_of_range (r := .video) ⟨hlo, hhi⟩]
    rw [memRead_eq ⟨by omega, by omega, by omega⟩, hb]
    rfl
  · rw [memWrite_of_not_writable (not_writable_of_video hlo hhi), if_pos hlo]
  · have hb : backingOf a = .desc (a.toNat - 0xD100) := by rw [backingOf, regionOf_of_range (r := .desc) ⟨hlo, hhi⟩]
    exact access_of_writable ⟨by omega, by omega, by omega⟩ hb v

/-- Settles O21: both addresses name one content byte, which no write reaches with one ROM bank or none. -/
theorem videoWindowAliasesTheSwitchableBank : Obligations.VideoWindowAliasesTheSwitchableBank := by
  intro s v j hinv hj
  have hbank : (BitVec.ofNat 16 (0x4000 + j)).toNat = 0x4000 + j := Nat.mod_eq_of_lt (by omega)
  have hwindow : (BitVec.ofNat 16 (0xA100 + j)).toNat = 0xA100 + j := Nat.mod_eq_of_lt (by omega)
  constructor
  · intro hbanks
    have hlen := lt_contentLength_of_two_banks hbanks (k := 0x4000 + j) (by omega)
    have hsame : backingOf (BitVec.ofNat 16 (0x4000 + j)) = backingOf (BitVec.ofNat 16 (0xA100 + j)) := by
      rw [backingOf, backingOf, regionOf_of_range (r := .switchBank) (by omega),
        regionOf_of_range (r := .video) (by omega)]
      simp only [hbank, hwindow, videoOffset, Backing.content.injEq]
      omega
    refine ⟨_, memWrite_eq ⟨by omega, by omega, by omega⟩ v, ?_⟩
    rw [hsame]
    exact memRead_putByte (canonical_of_inv hinv) ⟨by omega, by omega, by omega⟩
  · intro hbanks a t ht
    obtain ⟨-, hswitch, hvideo⟩ := (memWrite_ok ht).1
    refine memorySameBut_of_memWrite ht _ fun hsame => ?_
    have hne : a ≠ BitVec.ofNat 16 (0xA100 + j) := by
      rintro rfl
      exact hvideo (by omega)
    obtain ⟨i, hi, ⟨_, _⟩ | ⟨_, _⟩⟩ := aliases_of_backingOf_eq hne hsame.symm <;> omega

end Sys2Proof.Machine

namespace Sys2Proof.Machine

/-! Operand resolution of spec 40_execution_cycle.md section 3, the faults beside the values that `resolve_of_ready` needs. -/

theorem readOperand_of_ok {s : State} {a : Word} {b : Byte} (n : Nat) (h : memRead s a = .ok b) :
    readOperand s n a = .ok b.zext16 := by
  simp only [readOperand, afterBytes, h]

theorem readOperand_of_error {s : State} {a : Word} {c : FaultCause} (n : Nat) (h : memRead s a = .error c) :
    readOperand s n a = .error (.cpu c s.pc (s.pc + BitVec.ofNat 16 n)) := by
  simp only [readOperand, afterBytes, h]

theorem readOperand_of_not_readable {s : State} {a : Word} (n : Nat) (h : ¬ Readable s a) :
    ∃ f, readOperand s n a = .error f :=
  ⟨_, readOperand_of_error n (memRead_of_not_readable h)⟩

theorem checkIndex_zext16_of_ge {i : Byte} (h : 8 ≤ i.toNat) : checkIndex i.zext16 = .error (.badRegisterIndex i.zext16) :=
  checkIndex_of_ge (by rwa [toNat_zext16])

theorem regOperand_of_ge (s : State) {i : Byte} (h : 8 ≤ i.toNat) :
    regOperand s i = .error (.cpu (.badRegisterIndex i.zext16) s.pc (s.pc + 1)) := by
  rw [regOperand, checkIndex_zext16_of_ge h]
  rfl

/-- R136: the high register's index is checked first. -/
theorem pairOperand_of_hi_ge (s : State) {hi : Byte} (lo : Byte) (h : 8 ≤ hi.toNat) :
    pairOperand s hi lo = .error (.cpu (.badRegisterIndex hi.zext16) s.pc (s.pc + 1)) := by
  rw [pairOperand, checkIndex_zext16_of_ge h]
  rfl

theorem pairOperand_of_lo_ge (s : State) {hi lo : Byte} (hhi : hi.toNat < 8) (hlo : 8 ≤ lo.toNat) :
    pairOperand s hi lo = .error (.cpu (.badRegisterIndex lo.zext16) s.pc (s.pc + 2)) := by
  rw [pairOperand, checkIndex_zext16_of_lt hhi, checkIndex_zext16_of_ge hlo]
  rfl

/-- R80 to R89: an operand that is not ready faults, in every mode. -/
theorem resolve_of_not_ready {s : State} {o : Operand} (h : OperandReady s o = false) : ∃ f, resolve s o = .error f := by
  cases o with
  | imm8 v | imm16 v | carry | pc => cases h
  | mem8 a => exact readOperand_of_not_readable 1 (of_decide_eq_false h)
  | mem16 a => exact readOperand_of_not_readable 2 (of_decide_eq_false h)
  | reg i => exact ⟨_, regOperand_of_ge s (Nat.le_of_not_lt (of_decide_eq_false h))⟩
  | pair hi lo =>
    by_cases hhi : hi.toNat < 8
    · have hlo : 8 ≤ lo.toNat := by simpa [OperandReady, hhi] using h
      exact ⟨_, pairOperand_of_lo_ge s hhi hlo⟩
    · exact ⟨_, pairOperand_of_hi_ge s lo (by omega)⟩

/-- Settles O24: readiness decides, and `resolve_error` says where a fault is raised. -/
theorem operandsResolveExactlyWhenReady : Obligations.OperandsResolveExactlyWhenReady := by
  refine fun s o => ⟨resolve_of_ready, fun h => ?_⟩
  obtain ⟨f, hf⟩ := resolve_of_not_ready h
  obtain ⟨c, n, rfl, hlo, hhi, -⟩ := resolve_error hf
  exact ⟨c, n, hf, hlo, hhi⟩

/-- Settles O22: the four modes that read no memory. -/
theorem immediateRegisterAndCarryOperands : Obligations.ImmediateRegisterAndCarryOperands := by
  refine fun s => ⟨fun v => ⟨rfl, rfl, ?_⟩, fun i => ⟨rfl, ?_⟩, fun h l => ⟨?_, _, rfl, toNat_pairWith h l⟩, rfl, rfl⟩
  · rw [toNat_zext16]
    exact Nat.le_of_lt_succ v.isLt
  · split
    · next hi => exact regOperand_of_lt s hi
    · next hi => exact regOperand_of_ge s (by omega)
  · simp only [Operand.stream, high8_pairWith, low8_pairWith]

/-- R39: an 8-bit address lies in the fixed bank. -/
theorem memRead_zext16 (s : State) (a : Byte) : memRead s a.zext16 = contentAt s a.toNat a.zext16 := by
  have hlt := a.isLt
  have hreg : regionOf a.zext16 = .fixedBank := regionOf_of_range (r := .fixedBank) (by rw [toNat_zext16]; omega)
  simp only [memRead, hreg, toNat_zext16]
  rw [Nat.mod_eq_of_lt (by omega)]

/-- Settles O23: the modes that read memory, two registers or the pc. -/
theorem memoryPairAndPcOperands : Obligations.MemoryPairAndPcOperands := by
  refine fun s => ⟨fun a => ⟨rfl, ?_⟩, fun h l => ⟨?_, fun v => readOperand_of_ok 2, fun c => readOperand_of_error 2⟩,
    fun ih il => ⟨rfl, fun hh hl => ⟨_, pairOperand_of_lt s hh hl, toNat_pairWith _ _⟩,
      fun hh => pairOperand_of_hi_ge s il hh, fun hh hl => pairOperand_of_lo_ge s hh hl⟩, rfl, rfl⟩
  · split
    · next hlt => exact readOperand_of_ok 1 ((memRead_zext16 s a).trans (contentAt_of_lt hlt _))
    · next hge => exact readOperand_of_error 1 ((memRead_zext16 s a).trans (contentAt_of_le (by omega) _))
  · simp only [Operand.stream, high8_pairWith, low8_pairWith]

end Sys2Proof.Machine

namespace Sys2Proof.Machine

/-! NOOP, LDA, SAM and SAR of spec 41_load_store.md, PSH, POP and POP.pc of 43_stack.md: what each is once its operand has a
value. -/

/-- D1: the low byte as a number. -/
theorem low8_eq_ofNat (v : Word) : v.low8 = BitVec.ofNat 8 v.toNat := (BitVec.ofNat_toNat 8 v).symm

theorem exec_lda_of_resolve {s : State} {o : Operand} {v : Word} (h : resolve s o = .ok v) :
    exec (.lda o) s = .next { s.setReg 0 v.low8 with pc := s.pc + BitVec.ofNat 16 (1 + o.bytes) } :=
  (withOperand_ok h _).trans (finish_eq _ _)

theorem exec_sam_of_resolve {s : State} {o : Operand} {a : Word} (h : resolve s o = .ok a) :
    exec (.sam o) s = attempt s o.bytes (memWrite s a (s.reg 0)) (finish o.bytes) :=
  withOperand_ok h _

theorem exec_sar_of_resolve {s : State} {o : Operand} {v : Word} (h : resolve s o = .ok v) :
    exec (.sar o) s = attempt s o.bytes (checkIndex v) fun i => finish o.bytes (s.setReg i (s.reg 0)) :=
  withOperand_ok h _

theorem exec_psh_of_resolve {s : State} {o : Operand} {v : Word} (h : resolve s o = .ok v) :
    exec (.psh o) s = attempt s o.bytes (memWrite s s.sp v.low8) fun t => finish o.bytes t.spDown :=
  withOperand_ok h _

theorem exec_pop_of_resolve {s : State} {o : Operand} {v : Word} (h : resolve s o = .ok v) :
    exec (.pop o) s = attempt s.spUp o.bytes (checkIndex v) fun i =>
      attempt s.spUp o.bytes (memRead s (s.sp + 1)) fun b => finish o.bytes (s.spUp.setReg i b) :=
  withOperand_ok ((resolve_spUp s o).trans h) _

/-- The end of SAM and of PSH: the write moves no pc. -/
theorem finish_of_memWrite {s u : State} {a : Word} {b : Byte} (h : memWrite s a b = .ok u) (n : Nat) :
    finish n u = .next { u with pc := s.pc + BitVec.ofNat 16 (1 + n) } := by
  obtain ⟨-, -, hpc, -⟩ := memWrite_frame h
  rw [finish_eq, hpc]

/-- Settles O26: NOOP is one byte and finishes with no operand byte. -/
theorem noopOnlyAdvances : Obligations.NoopOnlyAdvances := fun _ s => ⟨rfl, finish_eq 0 s⟩

/-- Settles O27: R0 takes the operand's low byte. -/
theorem ldaLoadsTheLowByte : Obligations.LdaLoadsTheLowByte := by
  refine fun o s => ⟨fun hready => ?_, fun f hf => withOperand_error hf _⟩
  obtain ⟨v, hv⟩ := resolve_of_ready hready
  exact ⟨v, hv, low8_eq_ofNat v ▸ exec_lda_of_resolve hv⟩

/-- Settles O28: the write of R0 decides, and the byte written reads back. -/
theorem samStoresR0 : Obligations.SamStoresR0 := by
  refine fun o s => ⟨fun a ha => ⟨fun hw => ?_, fun c hc => ?_⟩, fun f hf => withOperand_error hf _⟩
  · have hwrite := memWrite_eq hw (s.reg 0)
    refine ⟨_, hwrite, ?_, fun hinv => memRead_putByte (canonical_of_inv hinv) (readable_of_writable hw)⟩
    rw [exec_sam_of_resolve ha, hwrite, attempt_ok, finish_of_memWrite hwrite]
  · rw [exec_sam_of_resolve ha, hc, attempt_error]

/-- Settles O29: the index check decides. -/
theorem sarStoresIntoTheIndexedRegister : Obligations.SarStoresIntoTheIndexedRegister := by
  refine fun o s => ⟨fun v hv => ⟨fun hlt => ?_, fun hge => ?_⟩, fun f hf => withOperand_error hf _⟩
  · rw [exec_sar_of_resolve hv, checkIndex_of_lt hlt, attempt_ok, finish_eq]
    rfl
  · rw [exec_sar_of_resolve hv, checkIndex_of_ge hge, attempt_error]

/-- Settles O32: the write at sp decides, and sp goes down after it. -/
theorem pshStoresAtSpThenDecrements : Obligations.PshStoresAtSpThenDecrements := by
  refine fun o s => ⟨fun v hv => ?_, fun f hf => withOperand_error hf _⟩
  rw [← low8_eq_ofNat, exec_psh_of_resolve hv]
  refine ⟨fun hw => ?_, fun c hc => ?_⟩
  · have hwrite := memWrite_eq hw v.low8
    obtain ⟨-, -, hpc, hsp, -⟩ := memWrite_frame hwrite
    refine ⟨_, hwrite, ?_⟩
    rw [hwrite, attempt_ok, finish_eq, State.spDown, hpc, hsp]
  · rw [hc, attempt_error]

/-- Settles O33: the index check comes before the read at sp + 1. -/
theorem popLoadsTheIndexedRegister : Obligations.PopLoadsTheIndexedRegister := by
  refine fun o s _ => ⟨fun v hv => ⟨fun hlt hr => ?_, fun hge => ?_, fun c hlt hc => ?_⟩, fun f hf => ?_⟩
  · obtain ⟨b, hb⟩ := memRead_of_readable hr
    refine ⟨b, hb, ?_⟩
    rw [exec_pop_of_resolve hv, checkIndex_of_lt hlt, attempt_ok, hb, attempt_ok, finish_eq]
    rfl
  · rw [exec_pop_of_resolve hv, checkIndex_of_ge hge, attempt_error]
    rfl
  · rw [exec_pop_of_resolve hv, checkIndex_of_lt hlt, attempt_ok, hc, attempt_error]
    rfl
  · exact withOperand_error ((resolve_spUp s o).trans hf) _

theorem toNat_zext16_add_one (b : Byte) : (b.zext16 + 1).toNat = b.toNat + 1 := by
  have hlt := b.isLt
  rw [BitVec.toNat_add, toNat_zext16]
  exact Nat.mod_eq_of_lt (by simp; omega)

/-- Settles O34: the trailing advance follows the popped pc. -/
theorem popPcGoesOnPastThePoppedByte : Obligations.PopPcGoesOnPastThePoppedByte := by
  have heq : ∀ s : State, exec .popPc s = attempt s.spUp 0 (memRead s (s.sp + 1)) fun b =>
    .next (State.trailing { s.spUp with pc := b.zext16 }) := fun _ => rfl
  refine fun s => ⟨fun hr => ?_, fun c hc => ?_⟩
  · obtain ⟨b, hb⟩ := memRead_of_readable hr
    refine ⟨b, _, hb, toNat_zext16_add_one b, ?_⟩
    rw [heq, hb, attempt_ok]
    rfl
  · rw [heq, hc, attempt_error, State.spUp_pc, BitVec.add_zero]

end Sys2Proof.Machine

namespace Sys2Proof.Machine

/-! CMP, OR, NOT, SHR and SHL of spec 44_compare_alu.md, beside ADD and AND above. -/

@[simp] theorem State.setZ_flagZ (s : State) (b : Bool) : (s.setZ b).flagZ = b :=
  getLsbD_putBit s.flags 0 b 0 (by decide)

theorem State.setZ_flags_other (s : State) (b : Bool) {k : Nat} (h : k ≠ 0) :
    (s.setZ b).flags.getLsbD k = s.flags.getLsbD k :=
  (getLsbD_putBit s.flags 0 b k (by decide)).trans (if_neg h)

/-- R104: the comparison as one of numbers. -/
theorem compareZ_eq (r : Byte) (v : Word) : compareZ r v = decide (r.toNat = v.toNat) := by
  rw [compareZ, decide_eq_decide, ← toNat_zext16 r, BitVec.toNat_inj]

/-- Settles O35: CMP writes Z alone. -/
theorem cmpSetsZeroOnEquality : Obligations.CmpSetsZeroOnEquality := by
  refine fun o s => ⟨fun hready => ?_, fun f hf => withOperand_error hf _⟩
  obtain ⟨v, hv⟩ := resolve_of_ready hready
  refine ⟨v, _, hv, (withOperand_ok hv _).trans (finish_eq _ _), ?_, fun k hk => s.setZ_flags_other _ hk, rfl⟩
  exact (s.setZ_flagZ _).trans (compareZ_eq (s.reg 0) v)

/-- R105 to R110: what a result in R0 leaves of the flags and of the state. -/
theorem setResult_spec (s : State) (r : Byte) (p : Word) {t : State} (h : t = { s.setResult r with pc := p }) :
    t.flagZ = decide (r = 0) ∧ t.flagN = r.getLsbD 7 ∧
    (∀ k, k = 1 ∨ 3 ≤ k → t.flags.getLsbD k = s.flags.getLsbD k) ∧
    t = { s with regs := s.regs.set 0 r, flags := t.flags, pc := p } := by
  obtain ⟨hZ, hN, hkept⟩ := setResult_flags s r
  subst h
  exact ⟨hZ, hN, fun k hk => hkept k (by omega) (by omega), rfl⟩

/-- D1: a disjunction narrowed to R0 is the disjunction modulo 256. -/
theorem toNat_low8_or (r : Byte) (v : Word) : (Word.low8 (r.zext16 ||| v)).toNat = (r.toNat ||| v.toNat) % 256 := by
  rw [BitVec.toNat_setWidth, BitVec.toNat_or, toNat_zext16]

theorem toNat_shiftRight (r : Byte) (n : Word) :
    (shiftRight r n).toNat = if 8 ≤ n.toNat then 0 else r.toNat / 2 ^ n.toNat := by
  rw [shiftRight, apply_ite BitVec.toNat, BitVec.toNat_ushiftRight, Nat.shiftRight_eq_div_pow]
  rfl

theorem toNat_shiftLeft (r : Byte) (n : Word) :
    (shiftLeft r n).toNat = if 8 ≤ n.toNat then 0 else r.toNat * 2 ^ n.toNat % 256 := by
  rw [shiftLeft, apply_ite BitVec.toNat, BitVec.toNat_shiftLeft, Nat.shiftLeft_eq]
  rfl

/-- Settles O38: the result is the narrowed disjunction. -/
theorem orMergesIntoR0 : Obligations.OrMergesIntoR0 := by
  refine fun o s => ⟨fun hready => ?_, fun f hf => withOperand_error hf _⟩
  obtain ⟨v, hv⟩ := resolve_of_ready hready
  exact ⟨v, _, _, hv, toNat_low8_or (s.reg 0) v, (withOperand_ok hv _).trans (finish_eq _ _), setResult_spec s _ _ rfl⟩

/-- Settles O39: the result is the complement, and no operand byte is consumed. -/
theorem notComplementsR0 : Obligations.NotComplementsR0 := by
  exact fun m s => ⟨_, _, BitVec.toNat_not, finish_eq 0 _, setResult_spec s _ _ rfl⟩

/-- Settles O40: the result is the quotient by a power of two. -/
theorem shrShiftsR0Right : Obligations.ShrShiftsR0Right := by
  refine fun o s => ⟨encodeM_head? 12 o, fun hready => ?_, fun f hf => withOperand_error hf _⟩
  obtain ⟨n, hn⟩ := resolve_of_ready hready
  exact ⟨n, _, _, hn, toNat_shiftRight (s.reg 0) n, (withOperand_ok hn _).trans (finish_eq _ _), setResult_spec s _ _ rfl⟩

/-- Settles O41: the result is the product with a power of two, modulo 256. -/
theorem shlShiftsR0Left : Obligations.ShlShiftsR0Left := by
  refine fun o s => ⟨encodeM_head? 13 o, fun hready => ?_, fun f hf => withOperand_error hf _⟩
  obtain ⟨n, hn⟩ := resolve_of_ready hready
  exact ⟨n, _, _, hn, toNat_shiftLeft (s.reg 0) n, (withOperand_ok hn _).trans (finish_eq _ _), setResult_spec s _ _ rfl⟩

end Sys2Proof.Machine

namespace Sys2Proof.Machine

/-! HALT (R74) and the instructions that stop whatever the state: the illegal opcodes of 40_execution_cycle.md and the illegal
jump conditions of 42_jump.md. -/

/-- Settles O25: HALT writes the run state, and `step` refuses a halted state. -/
theorem haltStopsInPlace : Obligations.HaltStopsInPlace := fun _ => ⟨rfl, rfl⟩

/-- Settles O31: each of the five raises the fault with its own instruction byte. -/
theorem illegalJumpConditionsFault : Obligations.IllegalJumpConditionsFault := by
  intro t s p hp
  simp only [List.mem_cons, List.not_mem_nil, or_false] at hp
  rcases hp with rfl | rfl | rfl | rfl | rfl <;> exact ⟨rfl, rfl⟩

/-- R61: the opcode in the instruction byte, as a number. -/
theorem toNat_headByte_mod (m : BitVec 3) (op : BitVec 5) : (headByte m op).toNat % 32 = op.toNat := by
  revert m op; decide

/-- R75: one byte, and a fault at its own address. -/
theorem unknownOpcode_stops {op : BitVec 5} (h : 14 ≤ op.toNat) (m : Mode) (s : State) :
    ∃ b : Byte, encodeN op m = [b] ∧ 14 ≤ b.toNat % 32 ∧
      unknownOpcode op m s = .fault (.cpu (.unknownOpcode b) s.pc s.pc) :=
  ⟨_, rfl, (toNat_headByte_mod _ _).symm ▸ h, by rw [unknownOpcode, raise, BitVec.add_zero]⟩

/-- Settles O42: the instructions of stop code 1 are the opcodes 14 to 31. -/
theorem illegalOpcodesFault : Obligations.IllegalOpcodesFault := by
  intro i s h
  cases i with
  | unknown14 m | unknown15 m | unknown16 m | unknown17 m | unknown18 m | unknown19 m | unknown20 m | unknown21 m
  | unknown22 m | unknown23 m | unknown24 m | unknown25 m | unknown26 m | unknown27 m | unknown28 m | unknown29 m
  | unknown30 m | unknown31 m => exact unknownOpcode_stops (by decide) m s
  | _ => simp [Instr.stopCode] at h

end Sys2Proof.Machine

namespace Sys2Proof.Machine

/-! What no instruction does: the frame of `exec`, said once for the stores, and each register's and flag's writers. -/

/-- The instructions that write memory (R93, R100). -/
def storesByte : Instr → Bool
  | .sam _ => true
  | .psh _ => true
  | _ => false

/-- Everything an instruction can do to the state: HALT stops it; SAM and PSH write one byte; the others write registers and
flags alone. -/
theorem exec_next_cases {i : Instr} {s t : State} (h : exec i s = .next t) :
    (i = .halt ∧ t = { s with run := .halted }) ∨
    (storesByte i = false ∧ t = { s with regs := t.regs, pc := t.pc, sp := t.sp, flags := t.flags }) ∨
    (storesByte i = true ∧ ∃ a v u, memWrite s a v = .ok u ∧ t = { u with pc := t.pc, sp := t.sp }) := by
  cases i with
  | halt => cases h; exact .inl ⟨rfl, rfl⟩
  | noop m => obtain rfl := execNoop_next (m := m) h; exact .inr (.inl ⟨rfl, rfl⟩)
  | lda o => obtain ⟨v, -, rfl⟩ := execLda_next h; exact .inr (.inl ⟨rfl, rfl⟩)
  | sam o => obtain ⟨a, u, -, hu, rfl⟩ := execSam_next h; exact .inr (.inr ⟨rfl, _, _, u, hu, rfl⟩)
  | sar o => obtain ⟨v, hv, -, rfl⟩ := execSar_next h; exact .inr (.inl ⟨rfl, rfl⟩)
  | jmp x => cases (exec_jmp x s).symm.trans h; exact .inr (.inl ⟨rfl, rfl⟩)
  | jz x => cases (exec_jz x s).symm.trans h; exact .inr (.inl ⟨rfl, rfl⟩)
  | jnz x => cases (exec_jnz x s).symm.trans h; exact .inr (.inl ⟨rfl, rfl⟩)
  | psh o => obtain ⟨v, u, -, hu, rfl⟩ := execPsh_next h; exact .inr (.inr ⟨rfl, _, _, u, hu, rfl⟩)
  | popPc => obtain ⟨b, -, rfl⟩ := execPopPc_next h; exact .inr (.inl ⟨rfl, rfl⟩)
  | pop o => obtain ⟨v, hv, b, -, -, rfl⟩ := execPop_next h; exact .inr (.inl ⟨rfl, rfl⟩)
  | cmp o => obtain ⟨v, -, rfl⟩ := execCmp_next h; exact .inr (.inl ⟨rfl, rfl⟩)
  | add o => obtain ⟨v, -, rfl⟩ := execAdd_next h; exact .inr (.inl ⟨rfl, rfl⟩)
  | and o => obtain ⟨v, -, rfl⟩ := execAnd_next h; exact .inr (.inl ⟨rfl, rfl⟩)
  | or o => obtain ⟨v, -, rfl⟩ := execOr_next h; exact .inr (.inl ⟨rfl, rfl⟩)
  | not m => obtain rfl := execNot_next (m := m) h; exact .inr (.inl ⟨rfl, rfl⟩)
  | shr o => obtain ⟨n, -, rfl⟩ := execShr_next h; exact .inr (.inl ⟨rfl, rfl⟩)
  | shl o => obtain ⟨n, -, rfl⟩ := execShl_next h; exact .inr (.inl ⟨rfl, rfl⟩)
  | _ => exact absurd h (exec_ne_next_of_stopCode nofun)

/-- Settles O48: neither a register write nor a write of one byte touches the rest. -/
theorem noInstructionTouchesTheRest : Obligations.NoInstructionTouchesTheRest := by
  intro i s t h
  rcases exec_next_cases h with ⟨rfl, rfl⟩ | ⟨-, ht⟩ | ⟨-, a, v, u, hu, ht⟩
  · exact ⟨⟨rfl, rfl, rfl, rfl⟩, fun hne => absurd rfl hne⟩
  · rw [ht]
    exact ⟨⟨rfl, rfl, rfl, rfl⟩, fun _ => rfl⟩
  · obtain ⟨hcart, -, -, -, -, hrun, hfb, hsnap, hcount⟩ := memWrite_frame hu
    rw [ht]
    exact ⟨⟨hcart, hfb, hsnap, hcount⟩, fun _ => hrun⟩

theorem memory_of_not_store {i : Instr} {s t : State} (h : exec i s = .next t) (hi : storesByte i = false) :
    MemorySame s t ∧ t.content = s.content ∧ t.io = s.io ∧ t.ram = s.ram ∧ t.desc = s.desc ∧ t.stack = s.stack := by
  rcases exec_next_cases h with ⟨-, ht⟩ | ⟨-, ht⟩ | ⟨hstore, -⟩
  · rw [ht]
    exact ⟨fun _ => rfl, rfl, rfl, rfl, rfl, rfl⟩
  · rw [ht]
    exact ⟨fun _ => rfl, rfl, rfl, rfl, rfl, rfl⟩
  · rw [hi] at hstore
    cases hstore

/-- Settles O47: SAM writes at its operand's value and PSH at sp, and the others write no memory. -/
theorem onlySamAndPshStore : Obligations.OnlySamAndPshStore := by
  intro i s t h
  cases i with
  | sam o =>
    obtain ⟨a, u, ha, hu, rfl⟩ := execSam_next h
    intro a' ha'
    cases ha.symm.trans ha'
    exact fun b hb => memorySameBut_of_memWrite hu b hb
  | psh o =>
    obtain ⟨v, u, -, hu, rfl⟩ := execPsh_next h
    exact fun b hb => memorySameBut_of_memWrite hu b hb
  | _ => exact memory_of_not_store h rfl

/-! ### The pc -/

theorem encodeM_length (op : BitVec 5) (o : Operand) : (encodeM op o).length = 1 + o.bytes := by
  rw [encodeM, List.length_cons, Operand.stream_length, Nat.add_comm]

/-- The pc past an operand instruction is past its bytes. -/
theorem pc_past_encodeM (p : Word) (op : BitVec 5) (o : Operand) :
    p + BitVec.ofNat 16 (1 + o.bytes) = p + BitVec.ofNat 16 (encodeM op o).length := by
  rw [encodeM_length]

/-- Settles O43: the pc of each instruction's next state. -/
theorem pcAfterEveryInstruction : Obligations.PcAfterEveryInstruction := by
  intro i s t _ h
  cases i with
  | halt => cases h; rfl
  | noop m => obtain rfl := execNoop_next (m := m) h; rfl
  | lda o => obtain ⟨v, -, rfl⟩ := execLda_next h; exact pc_past_encodeM s.pc 1 o
  | sam o => obtain ⟨a, u, -, -, rfl⟩ := execSam_next h; exact pc_past_encodeM s.pc 2 o
  | sar o => obtain ⟨v, hv, -, rfl⟩ := execSar_next h; exact pc_past_encodeM s.pc 3 o
  | jmp x => cases (exec_jmp x s).symm.trans h; rfl
  | jz x => cases (exec_jz x s).symm.trans h; rfl
  | jnz x =>
    cases (exec_jnz x s).symm.trans h
    cases s.flagZ <;> rfl
  | psh o => obtain ⟨v, u, -, -, rfl⟩ := execPsh_next h; exact pc_past_encodeM s.pc 5 o
  | popPc => obtain ⟨b, hb, rfl⟩ := execPopPc_next h; exact ⟨b, hb, rfl⟩
  | pop o => obtain ⟨v, hv, b, -, -, rfl⟩ := execPop_next h; exact pc_past_encodeM s.pc 6 o
  | cmp o => obtain ⟨v, -, rfl⟩ := execCmp_next h; exact pc_past_encodeM s.pc 7 o
  | add o => obtain ⟨v, -, rfl⟩ := execAdd_next h; exact pc_past_encodeM s.pc 8 o
  | and o => obtain ⟨v, -, rfl⟩ := execAnd_next h; exact pc_past_encodeM s.pc 9 o
  | or o => obtain ⟨v, -, rfl⟩ := execOr_next h; exact pc_past_encodeM s.pc 10 o
  | not m => obtain rfl := execNot_next (m := m) h; rfl
  | shr o => obtain ⟨n, -, rfl⟩ := execShr_next h; exact pc_past_encodeM s.pc 12 o
  | shl o => obtain ⟨n, -, rfl⟩ := execShl_next h; exact pc_past_encodeM s.pc 13 o
  | _ => exact absurd h (exec_ne_next_of_stopCode nofun)

/-! ### Flags -/

/-- FLAGS bits 3..7 are as before, and another fact holds: the shape of each clause of O44. -/
theorem highFlags_of_eq {s t : State} (h : t.flags = s.flags) :
    (∀ k, 3 ≤ k → t.flags.getLsbD k = s.flags.getLsbD k) ∧ t.flags = s.flags :=
  ⟨fun k _ => by rw [h], h⟩

/-- R105 to R110: a result writes neither C nor bits 3..7. -/
theorem setResult_keeps (s : State) (r : Byte) :
    (∀ k, 3 ≤ k → (s.setResult r).flags.getLsbD k = s.flags.getLsbD k) ∧ (s.setResult r).flagC = s.flagC := by
  obtain ⟨-, -, hkept⟩ := setResult_flags s r
  exact ⟨fun k hk => hkept k (by omega) (by omega), hkept 1 (by decide) (by decide)⟩

/-- Settles O44: CMP writes Z, ADD writes C and then its result's flags, the other ALU instructions their result's flags. -/
theorem onlyCompareAndAluWriteFlags : Obligations.OnlyCompareAndAluWriteFlags := by
  intro i s t h
  cases i with
  | halt => cases h; exact highFlags_of_eq rfl
  | noop m => obtain rfl := execNoop_next (m := m) h; exact highFlags_of_eq rfl
  | lda o => obtain ⟨v, -, rfl⟩ := execLda_next h; exact highFlags_of_eq rfl
  | sam o =>
    obtain ⟨a, u, -, hu, rfl⟩ := execSam_next h
    obtain ⟨-, -, -, -, hflags, -⟩ := memWrite_frame hu
    exact highFlags_of_eq hflags
  | sar o => obtain ⟨v, hv, -, rfl⟩ := execSar_next h; exact highFlags_of_eq rfl
  | jmp x => cases (exec_jmp x s).symm.trans h; exact highFlags_of_eq rfl
  | jz x => cases (exec_jz x s).symm.trans h; exact highFlags_of_eq rfl
  | jnz x => cases (exec_jnz x s).symm.trans h; exact highFlags_of_eq rfl
  | psh o =>
    obtain ⟨v, u, -, hu, rfl⟩ := execPsh_next h
    obtain ⟨-, -, -, -, hflags, -⟩ := memWrite_frame hu
    exact highFlags_of_eq hflags
  | popPc => obtain ⟨b, -, rfl⟩ := execPopPc_next h; exact highFlags_of_eq rfl
  | pop o => obtain ⟨v, hv, b, -, -, rfl⟩ := execPop_next h; exact highFlags_of_eq rfl
  | cmp o =>
    obtain ⟨v, -, rfl⟩ := execCmp_next h
    exact ⟨fun k hk => s.setZ_flags_other _ (by omega), s.setZ_flags_other _ (by decide), s.setZ_flags_other _ (by decide)⟩
  | add o =>
    obtain ⟨v, -, rfl⟩ := execAdd_next h
    obtain ⟨hhigh, -⟩ := setResult_keeps (s.setC (addCarry (s.reg 0))) (Word.low8 ((s.reg 0).zext16 + v))
    exact ⟨fun k hk => (hhigh k hk).trans (s.setC_flags_other _ (by omega)), trivial⟩
  | and o => obtain ⟨v, -, rfl⟩ := execAnd_next h; exact setResult_keeps s _
  | or o => obtain ⟨v, -, rfl⟩ := execOr_next h; exact setResult_keeps s _
  | not m => obtain rfl := execNot_next (m := m) h; exact setResult_keeps s _
  | shr o => obtain ⟨n, -, rfl⟩ := execShr_next h; exact setResult_keeps s _
  | shl o => obtain ⟨n, -, rfl⟩ := execShl_next h; exact setResult_keeps s _
  | _ => exact absurd h (exec_ne_next_of_stopCode nofun)

/-! ### General registers -/

/-- A register that an index does not name is kept. -/
theorem reg_setReg_of_val_ne (s : State) (i : Fin 8) (v : Byte) {j : Fin 8} (h : j.val ≠ i.val) :
    (s.setReg i v).reg j = s.reg j :=
  s.reg_setReg_other i j v fun e => h (congrArg Fin.val e)

/-- Settles O45: R0 is the destination of LDA and of the ALU instructions, the indexed register that of SAR and POP. -/
theorem onlyTheDestinationRegisterChanges : Obligations.OnlyTheDestinationRegisterChanges := by
  intro i s t h
  cases i with
  | halt => cases h; rfl
  | noop m => obtain rfl := execNoop_next (m := m) h; rfl
  | lda o => obtain ⟨v, -, rfl⟩ := execLda_next h; exact fun j hj => s.reg_setReg_other 0 j _ hj
  | sam o =>
    obtain ⟨a, u, -, hu, rfl⟩ := execSam_next h
    obtain ⟨-, hregs, -⟩ := memWrite_frame hu
    exact hregs
  | sar o =>
    obtain ⟨v, hv, hres, rfl⟩ := execSar_next h
    intro w hw j hj
    cases hres.symm.trans hw
    exact reg_setReg_of_val_ne s ⟨v.toNat, hv⟩ _ hj
  | jmp x => cases (exec_jmp x s).symm.trans h; rfl
  | jz x => cases (exec_jz x s).symm.trans h; rfl
  | jnz x => cases (exec_jnz x s).symm.trans h; rfl
  | psh o =>
    obtain ⟨v, u, -, hu, rfl⟩ := execPsh_next h
    obtain ⟨-, hregs, -⟩ := memWrite_frame hu
    exact hregs
  | popPc => obtain ⟨b, -, rfl⟩ := execPopPc_next h; rfl
  | pop o =>
    obtain ⟨v, hv, b, hres, -, rfl⟩ := execPop_next h
    intro w hw j hj
    cases hres.symm.trans hw
    exact reg_setReg_of_val_ne s ⟨v.toNat, hv⟩ _ hj
  | cmp o => obtain ⟨v, -, rfl⟩ := execCmp_next h; rfl
  | add o => obtain ⟨v, -, rfl⟩ := execAdd_next h; exact fun j hj => s.reg_setReg_other 0 j _ hj
  | and o => obtain ⟨v, -, rfl⟩ := execAnd_next h; exact fun j hj => s.reg_setReg_other 0 j _ hj
  | or o => obtain ⟨v, -, rfl⟩ := execOr_next h; exact fun j hj => s.reg_setReg_other 0 j _ hj
  | not m => obtain rfl := execNot_next (m := m) h; exact fun j hj => s.reg_setReg_other 0 j _ hj
  | shr o => obtain ⟨n, -, rfl⟩ := execShr_next h; exact fun j hj => s.reg_setReg_other 0 j _ hj
  | shl o => obtain ⟨n, -, rfl⟩ := execShl_next h; exact fun j hj => s.reg_setReg_other 0 j _ hj
  | _ => exact absurd h (exec_ne_next_of_stopCode nofun)

end Sys2Proof.Machine

namespace Sys2Proof.Machine

/-! The invariant along a step: an instruction keeps the stores sound, and the refresh check leaves no refresh pending. -/

theorem toNat_lt_eight_iff (f : Byte) : f.toNat < 8 ↔ ∀ k, 3 ≤ k → f.getLsbD k = false :=
  ⟨fun h _ hk => Nat.testBit_lt_two_pow (Nat.lt_of_lt_of_le h (Nat.pow_le_pow_right (n := 2) (by decide) hk)),
    fun h => Nat.lt_pow_two_of_testBit (n := 3) f.toNat h⟩

theorem memWrite_sound {s t : State} {a : Word} {v : Byte} (hs : s.Sound) (h : memWrite s a v = .ok t) : t.Sound := by
  rcases memWrite_cases h with ⟨k, -, hk, -, rfl⟩ | ⟨k, -, hk, rfl⟩ | ⟨k, -, hk, rfl⟩ | ⟨k, -, hk, rfl⟩ | ⟨k, -, hlo, hk, rfl⟩
  · exact { hs with contentWf := Memory.write_wf k v hs.contentWf, contentWithin := Memory.write_within v hs.contentWithin hk }
  · exact { hs with ioWf := Memory.write_wf k v hs.ioWf, ioWithin := Memory.write_within v hs.ioWithin hk }
  · exact { hs with ramWf := Memory.write_wf k v hs.ramWf, ramWithin := Memory.write_within v hs.ramWithin hk }
  · exact { hs with descWf := Memory.write_wf k v hs.descWf, descWithin := Memory.write_within v hs.descWithin hk }
  · exact { hs with
      stackWf := Memory.write_wfFrom v hs.stackWf hlo, stackWithin := Memory.write_within v hs.stackWithin hk }

theorem exec_sound {i : Instr} {s t : State} (hs : s.Sound) (h : exec i s = .next t) : t.Sound := by
  have hflags : t.flags.toNat < 8 := by
    obtain ⟨hhigh, -⟩ := onlyCompareAndAluWriteFlags i s t h
    rw [toNat_lt_eight_iff]
    exact fun k hk => (hhigh k hk).trans ((toNat_lt_eight_iff _).1 hs.flags k hk)
  rcases exec_next_cases h with ⟨-, ht⟩ | ⟨-, ht⟩ | ⟨-, a, v, u, hu, ht⟩
  · rw [ht]
    exact { hs with }
  · rw [ht]
    exact { hs with flags := hflags }
  · rw [ht]
    exact { memWrite_sound hs hu with }

/-- R124, R125: the I/O bytes after a service. -/
theorem read_io_after_service (s : State) (fb : Memory) (hwf : s.io.wf = true) :
    (endRefresh (beginRefresh s) fb).io.read 0x00 = 0 ∧
    (endRefresh (beginRefresh s) fb).io.read 0x05 = nextSnapshot s ∧
    ∀ k, k ≠ 0 → k ≠ 5 → (endRefresh (beginRefresh s) fb).io.read k = s.io.read k := by
  rw [endRefresh_io, beginRefresh_io]
  refine ⟨?_, Memory.read_write_same _ _ (Memory.write_wf _ _ hwf), fun k h0 h5 => ?_⟩
  · rw [Memory.read_write_other _ _ (by decide), Memory.read_write_same _ _ hwf]
  · rw [Memory.read_write_other _ _ h5, Memory.read_write_other _ _ h0]

theorem refreshService_inv {s t : State} (hs : s.Sound) (h : refreshService s = .next t) : t.inv = true := by
  obtain ⟨fb, -, hfb, rfl⟩ := refreshService_next h
  obtain ⟨hcleared, -⟩ := read_io_after_service s fb hs.ioWf
  refine inv_iff.2 ⟨{ hs with
    ioWf := Memory.write_wf _ _ (Memory.write_wf _ _ hs.ioWf)
    ioWithin := Memory.write_within _ (Memory.write_within _ hs.ioWithin (by decide)) (by decide)
    fb := hfb }, ?_⟩
  rw [hcleared]
  decide

/-- Settles O13: the instruction keeps the stores sound, and the check after it clears the trigger. -/
theorem everyStepKeepsTheInvariant : Obligations.EveryStepKeepsTheInvariant := by
  intro s t hinv h
  obtain ⟨i, u, -, -, hexec, hcheck⟩ := step_next h
  have hu : u.Sound := exec_sound (inv_iff.1 hinv).1 hexec
  rcases refreshCheck_next hcheck with ⟨hpending, rfl⟩ | ⟨-, hservice⟩
  · exact inv_iff.2 ⟨hu, hpending⟩
  · exact refreshService_inv hu hservice

/-- Settles O14: neither an instruction nor a refresh writes the header, and only HALT writes the run state. -/
theorem stepKeepsTheHeader : Obligations.StepKeepsTheHeader := by
  intro s t h
  obtain ⟨i, u, hrun, -, hexec, hcheck⟩ := step_next h
  have hu : u.cart = s.cart ∧ (u.run = .running ∨ u.run = .halted) := by
    obtain ⟨⟨hcart, -⟩, hkept⟩ := noInstructionTouchesTheRest i s u hexec
    refine ⟨hcart, ?_⟩
    by_cases hi : i = .halt
    · subst hi
      cases hexec
      exact .inr rfl
    · exact .inl ((hkept hi).trans hrun)
  rcases refreshCheck_next hcheck with ⟨-, rfl⟩ | ⟨-, hservice⟩
  · exact hu
  · obtain ⟨fb, -, -, rfl⟩ := refreshService_next hservice
    exact hu

end Sys2Proof.Machine

namespace Sys2Proof.Machine

/-! Noninterference, said once for a relation between states that no instruction can tell apart: related states have outcomes
that are related again. Such relations are another sp (O46), another hidden part (O49) and another input queue (O57). -/

/-- The states that `R` relates agree in all that an instruction off the stack reads, and stay related under all it writes. -/
structure Blind (R : State → State → Prop) : Prop where
  pc : ∀ {s t}, R s t → s.pc = t.pc
  regs : ∀ {s t}, R s t → s.regs = t.regs
  flagZ : ∀ {s t}, R s t → s.flagZ = t.flagZ
  flagC : ∀ {s t}, R s t → s.flagC = t.flagC
  memRead : ∀ {s t}, R s t → ∀ a, memRead s a = memRead t a
  writable : ∀ {s t}, R s t → ∀ a, Writable s a ↔ Writable t a
  putByte : ∀ {s t}, R s t → ∀ b v, R (s.putByte b v) (t.putByte b v)
  setPc : ∀ {s t}, R s t → ∀ p, R { s with pc := p } { t with pc := p }
  setReg : ∀ {s t}, R s t → ∀ i v, R (s.setReg i v) (t.setReg i v)
  setZ : ∀ {s t}, R s t → ∀ b, R (s.setZ b) (t.setZ b)
  setC : ∀ {s t}, R s t → ∀ b, R (s.setC b) (t.setC b)
  setResult : ∀ {s t}, R s t → ∀ r, R (s.setResult r) (t.setResult r)
  halted : ∀ {s t}, R s t → R { s with run := .halted } { t with run := .halted }

/-- The states that `R` relates have one sp, and stay related when it is set. -/
structure SameSp (R : State → State → Prop) : Prop where
  sp : ∀ {s t}, R s t → s.sp = t.sp
  setSp : ∀ {s t}, R s t → ∀ x, R { s with sp := x } { t with sp := x }

/-- Two outcomes of one kind, their states related or their reasons equal. -/
def Alike (R : State → State → Prop) : Result → Result → Prop
  | .next s, .next t => R s t
  | .fault f, .fault g => f = g
  | .refused x, .refused y => x = y
  | _, _ => False

/-- The instructions that use sp (R19). -/
def usesSp : Instr → Bool
  | .psh _ => true
  | .pop _ => true
  | .popPc => true
  | _ => false

/-! ### The shared operations -/

theorem SameSp.spUp {R : State → State → Prop} {s t : State} (hsp : SameSp R) (h : R s t) : R s.spUp t.spUp := by
  rw [State.spUp, State.spUp, hsp.sp h]
  exact hsp.setSp h _

theorem SameSp.spDown {R : State → State → Prop} {s t : State} (hsp : SameSp R) (h : R s t) : R s.spDown t.spDown := by
  rw [State.spDown, State.spDown, hsp.sp h]
  exact hsp.setSp h _

section
variable {R : State → State → Prop} (hR : Blind R) {s t : State}
include hR

theorem Blind.reg (h : R s t) (i : Fin 8) : s.reg i = t.reg i := t.reg_eq_of_regs s (hR.regs h) i

theorem Blind.resolve (h : R s t) (o : Operand) : resolve s o = resolve t o := by
  cases o with
  | imm8 v | imm16 v => rfl
  | mem8 a | mem16 a => simp only [Machine.resolve, readOperand, afterBytes, hR.memRead h, hR.pc h]
  | reg i => simp only [Machine.resolve, regOperand, afterBytes, hR.pc h, hR.reg h]
  | pair hi lo => simp only [Machine.resolve, pairOperand, afterBytes, hR.pc h, hR.reg h]
  | carry => simp only [Machine.resolve, hR.flagC h]
  | pc => simp only [Machine.resolve, hR.pc h]

theorem Blind.withOperand (h : R s t) (o : Operand) {k k' : Word → Result} (hk : ∀ v, Alike R (k v) (k' v)) :
    Alike R (withOperand s o k) (withOperand t o k') := by
  unfold Machine.withOperand
  rw [hR.resolve h]
  cases Machine.resolve t o with
  | ok v => exact hk v
  | error f => exact (rfl : f = f)

theorem Blind.raise (h : R s t) (n : Nat) (c : FaultCause) : Alike R (raise s n c) (raise t n c) := by
  unfold Machine.raise
  rw [hR.pc h]
  exact (rfl : Fault.cpu _ _ _ = _)

theorem Blind.attempt {α : Type} (h : R s t) (n : Nat) (r : Except FaultCause α) {k k' : α → Result}
    (hk : ∀ v, Alike R (k v) (k' v)) : Alike R (attempt s n r k) (attempt t n r k') := by
  cases r with
  | ok v => exact hk v
  | error c => exact hR.raise h n c

/-- A write is refused in both states, or goes through in both and keeps them related. -/
theorem Blind.attempt_memWrite (h : R s t) (n : Nat) (a : Word) (v : Byte) {k k' : State → Result}
    (hk : ∀ s' t', R s' t' → Alike R (k s') (k' t')) :
    Alike R (Machine.attempt s n (memWrite s a v) k) (Machine.attempt t n (memWrite t a v) k') := by
  by_cases hw : Writable s a
  · rw [memWrite_eq hw, memWrite_eq ((hR.writable h a).1 hw)]
    exact hk _ _ (hR.putByte h _ v)
  · rw [memWrite_of_not_writable hw, memWrite_of_not_writable fun hw' => hw ((hR.writable h a).2 hw')]
    exact hR.raise h n _

theorem Blind.finish (h : R s t) (n : Nat) : Alike R (finish n s) (finish n t) := by
  rw [finish_eq, finish_eq, hR.pc h]
  exact hR.setPc h _

theorem Blind.jumpIf (h : R s t) (taken : Bool) (x : Byte) : Alike R (jumpIf taken x s) (jumpIf taken x t) := by
  rw [jumpIf_eq, jumpIf_eq, hR.pc h]
  exact hR.setPc h _

theorem Blind.finish_setResult (h : R s t) (n : Nat) {r r' : Byte} (hr : r = r') :
    Alike R (Machine.finish n (s.setResult r)) (Machine.finish n (t.setResult r')) :=
  hr ▸ hR.finish (hR.setResult h r) n

/-! ### Every instruction -/

/-- Related states have related outcomes under every instruction that does not use sp. -/
theorem Blind.exec_off_stack (h : R s t) {i : Instr} (hi : usesSp i = false) : Alike R (exec i s) (exec i t) := by
  have h0 : s.reg 0 = t.reg 0 := hR.reg h 0
  cases i with
  | halt => exact hR.halted h
  | noop m => exact hR.finish h 0
  | lda o => exact hR.withOperand h o fun v => hR.finish (hR.setReg h 0 v.low8) _
  | sam o =>
    refine hR.withOperand h o fun a => ?_
    rw [h0]
    exact hR.attempt_memWrite h _ a _ fun s' t' h' => hR.finish h' _
  | sar o =>
    refine hR.withOperand h o fun v => hR.attempt h _ _ fun i => ?_
    rw [h0]
    exact hR.finish (hR.setReg h i _) _
  | jmp x => exact hR.jumpIf h true x
  | jz x =>
    have hz : exec (.jz x) s = Machine.jumpIf t.flagZ x s := by rw [← hR.flagZ h]; rfl
    rw [hz]
    exact hR.jumpIf h t.flagZ x
  | jnz x =>
    have hz : exec (.jnz x) s = Machine.jumpIf (!t.flagZ) x s := by rw [← hR.flagZ h]; rfl
    rw [hz]
    exact hR.jumpIf h (!t.flagZ) x
  | jmpM3 x | jmpM4 x | jmpM5 x | jmpM6 x | jmpM7 x => exact hR.raise h 1 _
  | psh o | popPc | pop o => cases hi
  | cmp o =>
    refine hR.withOperand h o fun v => ?_
    rw [h0]
    exact hR.finish (hR.setZ h _) _
  | add o =>
    refine hR.withOperand h o fun v => ?_
    rw [h0]
    exact hR.finish (hR.setResult (hR.setC h _) _) _
  | and o => exact hR.withOperand h o fun v => hR.finish_setResult h _ (by rw [h0])
  | or o => exact hR.withOperand h o fun v => hR.finish_setResult h _ (by rw [h0])
  | not m => exact hR.finish_setResult h 0 (by rw [h0])
  | shr o => exact hR.withOperand h o fun v => hR.finish_setResult h _ (by rw [h0])
  | shl o => exact hR.withOperand h o fun v => hR.finish_setResult h _ (by rw [h0])
  | unknown14 m | unknown15 m | unknown16 m | unknown17 m | unknown18 m | unknown19 m | unknown20 m | unknown21 m
  | unknown22 m | unknown23 m | unknown24 m | unknown25 m | unknown26 m | unknown27 m | unknown28 m | unknown29 m
  | unknown30 m | unknown31 m => exact hR.raise h 0 _

/-- Where related states share the sp as well, no instruction tells them apart. -/
theorem Blind.exec (hsp : SameSp R) (h : R s t) (i : Instr) : Alike R (exec i s) (exec i t) := by
  have hup : R s.spUp t.spUp := hsp.spUp h
  have htop : Machine.memRead s.spUp s.spUp.sp = Machine.memRead t.spUp t.spUp.sp := by
    rw [hR.memRead hup, hsp.sp hup]
  cases i with
  | psh o =>
    refine hR.withOperand h o fun v => ?_
    rw [hsp.sp h]
    exact hR.attempt_memWrite h _ _ _ fun s' t' h' => hR.finish (hsp.spDown h') _
  | popPc =>
    unfold Machine.exec execPopPc
    rw [htop]
    exact hR.attempt hup 0 _ fun b => hR.setPc hup _
  | pop o =>
    refine hR.withOperand hup o fun v => hR.attempt hup _ _ fun i => ?_
    rw [htop]
    exact hR.attempt hup _ _ fun b => hR.finish (hR.setReg hup i b) _
  | _ => exact hR.exec_off_stack h rfl

theorem Blind.fetchByte (h : R s t) (n : Nat) : fetchByte s n = fetchByte t n := by
  simp only [Machine.fetchByte, hR.pc h, hR.memRead h]

theorem Blind.fetch (h : R s t) : fetch s = fetch t := by
  simp only [Machine.fetch, fetchSecond, hR.fetchByte h, hR.pc h]

theorem Blind.cpuStep (hsp : SameSp R) (h : R s t) : Alike R (cpuStep s) (cpuStep t) := by
  unfold Machine.cpuStep
  rw [hR.fetch h]
  cases Machine.fetch t with
  | ok i => exact hR.exec hsp h i
  | error f => exact (rfl : f = f)

end

end Sys2Proof.Machine

namespace Sys2Proof.Machine

/-! ### Another sp (O46), another queue (O57) -/

/-- The state with its sp and its input queue changed. -/
def mapSpQueue (f : Word → Word) (g : List Byte → List Byte) (s : State) : State :=
  { s with sp := f s.sp, snapshots := g s.snapshots }

/-- Nothing off the stack tells a state from itself with another sp and another queue. -/
theorem blind_mapSpQueue (f : Word → Word) (g : List Byte → List Byte) : Blind fun s t => t = mapSpQueue f g s where
  pc := by rintro s _ rfl; rfl
  regs := by rintro s _ rfl; rfl
  flagZ := by rintro s _ rfl; rfl
  flagC := by rintro s _ rfl; rfl
  memRead := by rintro s _ rfl a; rfl
  writable := by rintro s _ rfl a; rfl
  putByte := by rintro s _ rfl b v; cases b <;> rfl
  setPc := by rintro s _ rfl p; rfl
  setReg := by rintro s _ rfl i v; rfl
  setZ := by rintro s _ rfl b; rfl
  setC := by rintro s _ rfl b; rfl
  setResult := by rintro s _ rfl r; rfl
  halted := by rintro s _ rfl; rfl

/-- The outcome with a map applied to its next state. -/
def mapNext (φ : State → State) : Result → Result
  | .next s => .next (φ s)
  | .fault f => .fault f
  | .refused x => .refused x

theorem eq_mapNext_of_alike {φ : State → State} {r r' : Result} (h : Alike (fun s t => t = φ s) r r') :
    r' = mapNext φ r := by
  cases r <;> cases r'
  case next.next s t => exact congrArg Host.Outcome.next h
  case fault.fault f g => exact congrArg Host.Outcome.fault h.symm
  case refused.refused x y => exact congrArg Host.Outcome.refused h.symm
  all_goals exact h.elim

/-- With another sp an instruction off the stack does the same. -/
theorem exec_withSp {i : Instr} (hi : usesSp i = false) (s : State) (x : Word) :
    exec i { s with sp := x } = mapNext (fun t => { t with sp := x }) (exec i s) :=
  eq_mapNext_of_alike ((blind_mapSpQueue (fun _ => x) id).exec_off_stack rfl hi)

/-- A state is itself with its own sp, so its next state has that sp too. -/
theorem sp_of_off_stack {i : Instr} {s t : State} (hi : usesSp i = false) (h : exec i s = .next t) : t.sp = s.sp := by
  have hsame : exec i s = mapNext (fun t => { t with sp := s.sp }) (exec i s) := exec_withSp hi s s.sp
  rw [h, mapNext] at hsame
  exact (congrArg State.sp (Host.Outcome.next.inj hsame) :)

/-- Settles O46: the stack instructions' sp from their next states, and for the others the relation of another sp. -/
theorem onlyStackInstructionsUseSp : Obligations.OnlyStackInstructionsUseSp := by
  intro i s
  cases i with
  | psh o => intro t h; obtain ⟨v, u, -, -, rfl⟩ := execPsh_next h; rfl
  | pop o => intro t h; obtain ⟨v, hv, b, -, -, rfl⟩ := execPop_next h; rfl
  | popPc => intro t h; obtain ⟨b, -, rfl⟩ := execPopPc_next h; rfl
  | _ => exact ⟨fun t => sp_of_off_stack rfl, exec_withSp rfl s⟩

end Sys2Proof.Machine

namespace Sys2Proof.Machine

/-! ### Another hidden part (O49): the framebuffer, N and FLAGS bits 3..7, and the unread header fields -/

/-- A mask that keeps the bit written commutes with the write. -/
theorem putBit_and_of_kept {m : Byte} {i : Nat} (hi : i < 8) (hm : m.getLsbD i = true) (f : Byte) (b : Bool) :
    putBit f i b &&& m = putBit (f &&& m) i b := by
  refine BitVec.eq_of_getLsbD_eq fun k _ => ?_
  rw [getLsbD_putBit _ _ _ _ hi, BitVec.getLsbD_and, BitVec.getLsbD_and, getLsbD_putBit _ _ _ _ hi]
  by_cases hk : k = i
  · rw [if_pos hk, if_pos hk, hk, hm, Bool.and_true]
  · rw [if_neg hk, if_neg hk]

/-- A mask that drops the bit written drops the write. -/
theorem putBit_and_of_dropped {m : Byte} {i : Nat} (hi : i < 8) (hm : m.getLsbD i = false) (f : Byte) (b : Bool) :
    putBit f i b &&& m = f &&& m := by
  refine BitVec.eq_of_getLsbD_eq fun k _ => ?_
  rw [BitVec.getLsbD_and, BitVec.getLsbD_and, getLsbD_putBit _ _ _ _ hi]
  by_cases hk : k = i
  · rw [hk, hm, Bool.and_false, Bool.and_false]
  · rw [if_neg hk]

theorem hide_setZ (s : State) (b : Bool) : hide (s.setZ b) = (hide s).setZ b :=
  congrArg (fun f => { hide s with flags := f }) (putBit_and_of_kept (by decide) rfl s.flags b)

theorem hide_setC (s : State) (b : Bool) : hide (s.setC b) = (hide s).setC b :=
  congrArg (fun f => { hide s with flags := f }) (putBit_and_of_kept (by decide) rfl s.flags b)

theorem hide_setN (s : State) (b : Bool) : hide (s.setN b) = hide s :=
  congrArg (fun f => { hide s with flags := f }) (putBit_and_of_dropped (by decide) rfl s.flags b)

theorem hide_setResult (s : State) (r : Byte) : hide (s.setResult r) = ((hide s).setReg 0 r).setZ (decide (r = 0)) :=
  (hide_setN _ _).trans (hide_setZ _ _)

theorem hide_putByte (s : State) (b : Backing) (v : Byte) : hide (s.putByte b v) = (hide s).putByte b v := by
  cases b <;> rfl

theorem hide_flagZ (s : State) : (hide s).flagZ = s.flagZ :=
  BitVec.getLsbD_and.trans (Bool.and_true _)

theorem hide_flagC (s : State) : (hide s).flagC = s.flagC :=
  BitVec.getLsbD_and.trans (Bool.and_true _)

theorem hide_memRead (s : State) (a : Word) : memRead (hide s) a = memRead s a := rfl

theorem hide_writable (s : State) (a : Word) : Writable (hide s) a ↔ Writable s a := Iff.rfl

/-- No instruction off the stack tells states with one visible part apart. -/
theorem blind_hide : Blind fun s t => hide s = hide t where
  pc h := (congrArg State.pc h :)
  regs h := (congrArg State.regs h :)
  flagZ {s t} h := by rw [← hide_flagZ s, h, hide_flagZ]
  flagC {s t} h := by rw [← hide_flagC s, h, hide_flagC]
  memRead {s t} h a := by rw [← hide_memRead s, h, hide_memRead]
  writable {s t} h a := by rw [← hide_writable s, h, hide_writable]
  putByte h b v := by rw [hide_putByte, h, hide_putByte]
  setPc h p := congrArg (fun s => { s with pc := p }) h
  setReg h i v := congrArg (fun s => s.setReg i v) h
  setZ h b := by rw [hide_setZ, h, hide_setZ]
  setC h b := by rw [hide_setC, h, hide_setC]
  setResult h r := by rw [hide_setResult, h, hide_setResult]
  halted h := congrArg (fun s => { s with run := .halted }) h

theorem sameSp_hide : SameSp fun s t => hide s = hide t where
  sp h := (congrArg State.sp h :)
  setSp h x := congrArg (fun s => { s with sp := x }) h

theorem contentLength_congr {g h : Header} (hrom : g.romBanks = h.romBanks) (hvideo : g.videoBanks = h.videoBanks) :
    g.contentLength = h.contentLength := by
  rw [Header.contentLength, Header.contentLength, hrom, hvideo]

theorem tileByteAt_congr {s t : State} (hlen : t.cart.contentLength = s.cart.contentLength)
    (hcontent : t.content = s.content) (b : Byte) (j : Nat) : tileByteAt t b j = tileByteAt s b j := by
  rw [tileByteAt, tileByteAt, contentAt, contentAt, hlen, hcontent]

theorem tileBytesAt_congr {s t : State} (hlen : t.cart.contentLength = s.cart.contentLength)
    (hcontent : t.content = s.content) (b : Byte) (js : List Nat) : tileBytesAt t b js = tileBytesAt s b js := by
  induction js with
  | nil => rfl
  | cons j js ih => rw [tileBytesAt, tileBytesAt, tileByteAt_congr hlen hcontent, ih]

/-- The renderer reads the content, its length, the I/O bytes and the descriptors alone. -/
theorem drawEntries_congr {s t : State} (hlen : t.cart.contentLength = s.cart.contentLength) (hcontent : t.content = s.content)
    (hio : t.io = s.io) (hdesc : t.desc = s.desc) (ks : List Nat) (fb : Memory) :
    drawEntries t ks fb = drawEntries s ks fb := by
  induction ks generalizing fb with
  | nil => rfl
  | cons k ks ih =>
    have hentry : drawEntry t k fb = drawEntry s k fb := by
      rw [drawEntry, drawEntry, tileAt, tileAt, tileBytesAt_congr hlen hcontent, hio, hdesc]
    rw [drawEntries, drawEntries, hentry]
    cases drawEntry s k fb with
    | error c => rfl
    | ok fb' => exact ih fb'

theorem render_congr {s t : State} (hlen : t.cart.contentLength = s.cart.contentLength) (hcontent : t.content = s.content)
    (hio : t.io = s.io) (hdesc : t.desc = s.desc) (fb : Memory) : render t fb = render s fb :=
  drawEntries_congr hlen hcontent hio hdesc (List.range 153) fb

theorem and_three_and_three (f : Byte) : f &&& 3 &&& 3 = f &&& 3 := by rw [BitVec.and_assoc, BitVec.and_self]

theorem hide_hide (s : State) : hide (hide s) = hide s :=
  congrArg (fun f => { hide s with flags := f }) (and_three_and_three s.flags)

theorem hide_endRefresh (s : State) (fb : Memory) :
    hide (endRefresh (beginRefresh (hide s)) fb) = hide (endRefresh (beginRefresh s) fb) :=
  congrArg (fun f => { hide (endRefresh (beginRefresh s) fb) with flags := f }) (and_three_and_three s.flags)

theorem refreshService_of_ok {s : State} {fb : Memory} (h : render (beginRefresh s) [] = .ok fb) :
    refreshService s = .next (endRefresh (beginRefresh s) fb) := by
  rw [← beginRefresh_fb s] at h
  rw [refreshService, h]

theorem refreshService_of_error {s : State} {c : FaultCause} (h : render (beginRefresh s) [] = .error c) :
    refreshService s = .fault (.render c s.pc s.pc) := by
  rw [← beginRefresh_fb s] at h
  rw [refreshService, h]

theorem seen_refreshService (s : State) : seen (refreshService (hide s)) = seen (refreshService s) := by
  have hrender : render (beginRefresh (hide s)) [] = render (beginRefresh s) [] :=
    render_congr (s := beginRefresh s) (t := beginRefresh (hide s)) (contentLength_congr rfl rfl) rfl rfl rfl []
  cases hr : render (beginRefresh s) [] with
  | ok fb =>
    rw [refreshService_of_ok hr, refreshService_of_ok (hrender.trans hr)]
    exact congrArg Host.Outcome.next (hide_endRefresh s fb)
  | error c =>
    rw [refreshService_of_error hr, refreshService_of_error (hrender.trans hr)]
    rfl

theorem seen_refreshCheck (s : State) : seen (refreshCheck (hide s)) = seen (refreshCheck s) := by
  by_cases h : s.io.read 0x00 = 1
  · have hs : refreshCheck s = refreshService s := if_pos h
    have hhide : refreshCheck (hide s) = refreshService (hide s) := if_pos h
    rw [hs, hhide, seen_refreshService]
  · have hs : refreshCheck s = .next s := if_neg h
    have hhide : refreshCheck (hide s) = .next (hide s) := if_neg h
    rw [hs, hhide]
    exact congrArg Host.Outcome.next (hide_hide s)

theorem seen_afterCpuStep {r r' : Result} (h : Alike (fun s t => hide s = hide t) r r') :
    seen (afterCpuStep r) = seen (afterCpuStep r') := by
  cases r <;> cases r'
  case next.next s t =>
    have hst : hide s = hide t := h
    exact (seen_refreshCheck s).symm.trans (hst ▸ seen_refreshCheck t)
  case fault.fault f g => exact congrArg Host.Outcome.fault h
  case refused.refused x y => exact congrArg Host.Outcome.refused h
  all_goals exact h.elim

/-- Settles O49: the Cpu step is blind to the hidden part, and the refresh check after it shows none of it. -/
theorem hiddenStateIsNeverObserved : Obligations.HiddenStateIsNeverObserved := by
  intro s t h
  have hrun : s.run = t.run := (congrArg State.run h :)
  unfold step
  rw [hrun]
  cases t.run with
  | running => exact seen_afterCpuStep (blind_hide.cpuStep sameSp_hide h)
  | halted => rfl
  | faulted f => rfl

end Sys2Proof.Machine

namespace Sys2Proof.Machine

/-! Fetching and stepping (spec 40_execution_cycle.md section 1, 60_exceptions.md section 1): a fetch that fails and its record, and
a Cpu step as `exec` of the instruction that the bytes at the pc make. -/

/-! ### Fetches that fail -/

theorem fetchByte_zero_ok {s : State} {v : Byte} (h : memRead s s.pc = .ok v) : fetchByte s 0 = .ok v :=
  fetchByte_ok (by rwa [BitVec.add_zero])

theorem fetchByte_zero_error {s : State} {c : FaultCause} (h : memRead s s.pc = .error c) :
    fetchByte s 0 = .error (.cpu c s.pc s.pc) := by
  rw [fetchByte_error (c := c) (by rwa [BitVec.add_zero]), BitVec.add_zero]

theorem fetch_of_head_error {s : State} {f : Fault} (h0 : fetchByte s 0 = .error f) : fetch s = .error f := by
  simp [fetch, h0]

theorem fetch_of_first_error {s : State} {b : Byte} {f : Fault} (h0 : fetchByte s 0 = .ok b) (hb : 1 ≤ operandBytes b)
    (h1 : fetchByte s 1 = .error f) : fetch s = .error f := by
  have hle := operandBytes_le b
  obtain hn | hn : operandBytes b = 1 ∨ operandBytes b = 2 := by omega
  · simp [fetch, h0, hn, h1]
  · simp [fetch, h0, hn, h1]

theorem fetch_of_second_error {s : State} {b x : Byte} {f : Fault} (h0 : fetchByte s 0 = .ok b) (hb : operandBytes b = 2)
    (h1 : fetchByte s 1 = .ok x) (h2 : fetchSecond s b x = .error f) : fetch s = .error f := by
  simp [fetch, h0, hb, h1, h2]

theorem modeOf_modeBitsOf_eq_pair (b : Byte) : modeOf (modeBitsOf b) = .pair ↔ b.toNat / 32 = 5 := by
  revert b; decide +kernel

theorem headTakesPair_iff (b : Byte) : headTakesPair b = true ↔ operandBytes b = 2 ∧ b.toNat / 32 = 5 := by
  simp only [headTakesPair, Bool.and_eq_true, decide_eq_true_eq, modeOf_modeBitsOf_eq_pair]

/-- R136: in mode 5 a first index of 8 or more stops the fetch before the second byte. -/
theorem fetchSecond_of_bad_index (s : State) {b x : Byte} (hp : headTakesPair b = true) (hx : 8 ≤ x.toNat) :
    fetchSecond s b x = .error (.cpu (.badRegisterIndex x.zext16) s.pc (s.pc + 1)) := by
  simp [fetchSecond, hp, hx]

theorem fetchSecond_of_index (s : State) {b x : Byte} (h : headTakesPair b = true → x.toNat < 8) :
    fetchSecond s b x = fetchByte s 2 := by
  refine fetchSecond_eq ?_
  cases hp : headTakesPair b
  · rfl
  · exact decide_eq_false (Nat.not_le_of_lt (h hp))

theorem step_of_fetch_error {s : State} {f : Fault} (hrun : s.run = .running) (h : fetch s = .error f) : step s = .fault f := by
  simp [step, hrun, cpuStep, h, afterCpuStep]

theorem step_of_cpuStep {s : State} {r : Result} (hrun : s.run = .running) (h : cpuStep s = r) : step s = afterCpuStep r := by
  simp [step, hrun, h]

/-! ### The instruction the bytes make -/

/-- A byte the instruction does not take is not looked at. -/
theorem instrOf_eq_of_take {b x y x' y' : Byte}
    (h : [x, y].take (operandBytes b) = [x', y'].take (operandBytes b)) : instrOf b x y = instrOf b x' y' := by
  have hdec := decodeUndoesEncode (instrOf b x y) [] (wf_instrOf b x y)
  have hdec' := decodeUndoesEncode (instrOf b x' y') [] (wf_instrOf b x' y')
  rw [encode_instrOf, h, ← encode_instrOf, hdec'] at hdec
  exact (congrArg Prod.fst (Except.ok.inj hdec)).symm

/-- R86, R136: the index check of the fetch is the one `exec` makes, so an instruction that fails it faults the same. -/
theorem exec_instrOf_of_bad_index {b x : Byte} (hp : headTakesPair b = true) (hx : 8 ≤ x.toNat) (y : Byte) (s : State) :
    exec (instrOf b x y) s = .fault (.cpu (.badRegisterIndex x.zext16) s.pc (s.pc + 1)) := by
  have hbad : resolve s (.pair x y) = .error (.cpu (.badRegisterIndex x.zext16) s.pc (s.pc + 1)) :=
    pairOperand_of_hi_ge s y hx
  obtain ⟨h2, h5⟩ := (headTakesPair_iff b).1 hp
  have hmode := (modeOf_modeBitsOf_eq_pair b).2 h5
  have hne : b ≠ 0xFF := by rintro rfl; exact absurd h5 (by decide)
  rw [operandBytes, if_neg hne, hmode] at h2
  rw [instrOf, if_neg hne, hmode]
  generalize opcodeOf b = op at h2 ⊢
  rcases opcode_cases op with hop | hop | rfl | rfl | rfl
  · fin_cases hop <;> exact withOperand_error hbad _
  · fin_cases hop <;> cases h2
  · cases h2
  · exact withOperand_error ((resolve_spUp s _).trans hbad) _
  · cases h2

/-- R72: where the bytes an instruction takes can be read at the pc, a Cpu step executes it. -/
theorem cpuStep_of_bytes {s : State} {b x y : Byte} (h0 : fetchByte s 0 = .ok b)
    (h1 : 1 ≤ operandBytes b → fetchByte s 1 = .ok x) (h2 : 2 ≤ operandBytes b → fetchByte s 2 = .ok y) :
    cpuStep s = exec (instrOf b x y) s := by
  have hle := operandBytes_le b
  unfold cpuStep
  obtain hn | hn | hn : operandBytes b = 0 ∨ operandBytes b = 1 ∨ operandBytes b = 2 := by omega
  · rw [fetch_zero h0 hn, instrOf_eq_of_take (x' := x) (y' := y) (by rw [hn]; rfl)]
  · rw [fetch_one h0 hn (h1 (by omega)), instrOf_eq_of_take (x' := x) (y' := y) (by rw [hn]; rfl)]
  · by_cases hbad : headTakesPair b = true ∧ 8 ≤ x.toNat
    · rw [fetch_of_second_error h0 hn (h1 (by omega)) (fetchSecond_of_bad_index s hbad.1 hbad.2),
        exec_instrOf_of_bad_index hbad.1 hbad.2]
    · have hsecond : fetchSecond s b x = .ok y :=
        (fetchSecond_of_index s fun hp => Nat.lt_of_not_le fun hx => hbad ⟨hp, hx⟩).trans (h2 (by omega))
      rw [fetch_two h0 hn (h1 (by omega)) hsecond]

/-- Every well-formed instruction is made by a first byte and two more. -/
theorem exists_instrOf {i : Instr} (h : i.wf = true) : ∃ b x y, i = instrOf b x y := by
  obtain ⟨b, x, y, hi, -⟩ := decode_ok (decodeUndoesEncode i [] h)
  exact ⟨b, x, y, hi⟩

/-- Settles O6: the bytes at the pc are those `encode_instrOf` gives, and the refresh check follows. -/
theorem stepRunsTheDecodedInstruction : Obligations.StepRunsTheDecodedInstruction := by
  intro s i hrun hwf hbytes
  obtain ⟨b, x, y, rfl⟩ := exists_instrOf hwf
  rw [encode_instrOf] at hbytes
  have hcpu : cpuStep s = exec (instrOf b x y) s := by
    refine cpuStep_of_bytes (fetchByte_ok (hbytes 0 b rfl)) (fun hn => fetchByte_ok (hbytes 1 x ?_))
      (fun hn => fetchByte_ok (hbytes 2 y ?_))
    · rw [List.getElem?_cons_succ, List.getElem?_take_of_lt hn]
      rfl
    · rw [List.getElem?_cons_succ, List.getElem?_take_of_lt hn]
      rfl
  rw [step_of_cpuStep hrun hcpu]
  cases exec (instrOf b x y) s <;> rfl

/-- Settles O7: `step` looks at the run state first. -/
theorem onlyRunningSteps : Obligations.OnlyRunningSteps :=
  fun s => ⟨fun h => by rw [step, h], fun f h => by rw [step, h]⟩

theorem illegal_of_opcode (b : Byte) (h : 13 < b.toNat % 32) (hne : b ≠ 0xFF) :
    operandBytes b = 0 ∧ (instrOf b 0 0).stopCode = some 1 := by
  revert b; decide +kernel

/-- Settles O8: each clause is the fetch that fails first, or the illegal opcode it ends with. -/
theorem fetchFaultsComeInOrder : Obligations.FetchFaultsComeInOrder := by
  intro s hrun
  refine ⟨fun c h0 => ?_, fun b h0 hop hne => ?_, fun b c h0 hn h1 => ?_, fun b x h0 hn hmode h1 hx => ?_,
    fun b x c h0 hn hmode h1 h2 => ?_⟩
  · exact step_of_fetch_error hrun (fetch_of_head_error (fetchByte_zero_error h0))
  · obtain ⟨hn, hstop⟩ := illegal_of_opcode b hop hne
    have hcpu : cpuStep s = exec (instrOf b 0 0) s :=
      cpuStep_of_bytes (fetchByte_zero_ok h0) (fun h => by omega) (fun h => by omega)
    obtain ⟨b', henc, -, hexec⟩ := illegalOpcodesFault (instrOf b 0 0) s hstop
    rw [encode_instrOf, hn] at henc
    cases henc
    rw [step_of_cpuStep hrun (hcpu.trans hexec)]
    rfl
  · exact step_of_fetch_error hrun (fetch_of_first_error (fetchByte_zero_ok h0) hn (fetchByte_error (n := 1) h1))
  · exact step_of_fetch_error hrun (fetch_of_second_error (fetchByte_zero_ok h0) hn (fetchByte_ok (n := 1) h1)
      (fetchSecond_of_bad_index s ((headTakesPair_iff b).2 ⟨hn, hmode⟩) hx))
  · have hsecond : fetchSecond s b x = fetchByte s 2 :=
      fetchSecond_of_index s fun hp => hmode ((headTakesPair_iff b).1 hp).2
    exact step_of_fetch_error hrun (fetch_of_second_error (fetchByte_zero_ok h0) hn (fetchByte_ok (n := 1) h1)
      (hsecond.trans (fetchByte_error (n := 2) h2)))

/-- Settles O20: with one bank every access is refused, the fetches in the order of O8, and with two each names its own content
byte. -/
theorem switchableBankIsRawIndexed : Obligations.SwitchableBankIsRawIndexed := by
  intro s a v hlo hhi
  refine ⟨fun hbanks => ?_, fun hbanks => ?_⟩
  · have hread : memRead s a = .error (.singleBankAccess a) := by
      rw [memRead_of_not_readable (by omega), if_neg (by omega), if_pos hlo]
    refine ⟨hread, ?_, ?_, ?_, ?_⟩
    · rw [memWrite_of_not_writable (by omega), if_neg (by omega), if_pos hlo]
    · rintro hrun rfl
      obtain ⟨hhead, -⟩ := fetchFaultsComeInOrder s hrun
      exact hhead _ hread
    · rintro b hrun h0 hn rfl
      obtain ⟨-, -, hfirst, -⟩ := fetchFaultsComeInOrder s hrun
      exact hfirst b _ h0 hn hread
    · rintro b x hrun h0 hn hmode h1 rfl
      obtain ⟨-, -, -, -, hsecond⟩ := fetchFaultsComeInOrder s hrun
      exact hsecond b x _ h0 hn hmode h1 hread
  · have hb : backingOf a = .content a.toNat := by rw [backingOf, regionOf_of_range (r := .switchBank) ⟨hlo, hhi⟩]
    obtain ⟨hread, hwrite⟩ := access_of_writable (s := s) ⟨by omega, by omega, by omega⟩ hb v
    exact ⟨lt_contentLength_of_two_banks hbanks hhi, hread, hwrite, fun w => memRead_congr_byte rfl (by rw [hb]; rfl)⟩

end Sys2Proof.Machine

namespace Sys2Proof.Machine

/-! The model's own placing of an instruction (assumption log 1): the bytes placed are read at their addresses, because the
cartridge is made to reach each of them and no two of three addresses in a row name one byte. -/

theorem memRead_ok_iff {s : State} {a : Word} {v : Byte} :
    memRead s a = .ok v ↔ Readable s a ∧ s.byteAt (backingOf a) = v := by
  by_cases h : Readable s a
  · rw [memRead_eq h, Except.ok.injEq]
    exact ⟨fun e => ⟨h, e⟩, fun e => e.2⟩
  · rw [memRead_of_not_readable h]
    exact ⟨nofun, fun e => absurd e.1 h⟩

/-- The state with another number of ROM banks. -/
def withRomBanks (s : State) (r : Byte) : State := { s with cart := { s.cart with romBanks := r } }

theorem withRomBanks_canonical {s : State} (hc : s.Canonical) (r : Byte) : (withRomBanks s r).Canonical :=
  ⟨hc.content, hc.io, hc.ram, hc.desc, hc.stack⟩

theorem readable_withRomBanks {s : State} {a : Word} {r : Byte} (hr : s.cart.romBanks.toNat ≤ r.toNat) (h : Readable s a) :
    Readable (withRomBanks s r) a := by
  have hlen : s.cart.contentLength ≤ (withRomBanks s r).cart.contentLength :=
    Nat.add_le_add_right (Nat.mul_le_mul_right 16384 hr) _
  obtain ⟨hfixed, hswitch, hvideo⟩ := h
  exact ⟨fun hle => (hfixed hle).trans_le hlen, fun hlo hhi => (hswitch hlo hhi).trans hr,
    fun hlo hhi => (hvideo hlo hhi).trans_le hlen⟩

/-- The addresses of the arrays are always readable. -/
theorem readable_of_array {a : Word} (h : 0x8000 ≤ (backingOf a).address) (s : State) : Readable s a := by
  rw [backingOf_address, videoOffset] at h
  split at h
  · omega
  · exact ⟨by omega, by omega, by omega⟩

/-- Two ROM banks make every address readable. -/
theorem readable_of_two_banks {s : State} (h : 2 ≤ s.cart.romBanks.toNat) (a : Word) : Readable s a := by
  have hlen : ∀ {k : Nat}, k ≤ 0x7FFF → k < s.cart.contentLength := lt_contentLength_of_two_banks h
  exact ⟨fun hle => hlen (by omega), fun _ _ => h, fun hlo hhi => hlen (by omega)⟩

/-- `placeByte` finds a content byte reached exactly where its address is readable. -/
theorem readable_iff_reached {a : Word} {k : Nat} (hb : backingOf a = .content k) (s : State) :
    Readable s a ↔ k < s.cart.contentLength ∧ (regionOf a ≠ .switchBank ∨ 1 < s.cart.romBanks.toNat) := by
  have hrange := regionOf_range a
  unfold backingOf at hb
  cases hreg : regionOf a <;> simp only [hreg, Backing.content.injEq, reduceCtorEq] at hb hrange
  case fixedBank => exact ⟨fun h => ⟨by omega, .inl nofun⟩, fun h => ⟨by omega, by omega, by omega⟩⟩
  case switchBank =>
    have hlen := lt_contentLength_of_two_banks (h := s.cart) (k := k)
    refine ⟨fun ⟨_, hbanks, _⟩ => ?_, fun ⟨_, hbanks⟩ => ⟨by omega, fun _ _ => ?_, by omega⟩⟩
    · exact ⟨hlen (hbanks hrange.1 hrange.2) (by omega), .inr (hbanks hrange.1 hrange.2)⟩
    · exact hbanks.resolve_left (not_not.2 rfl)
  case video =>
    rw [videoOffset] at hb
    exact ⟨fun h => ⟨by omega, .inl nofun⟩, fun h => ⟨by omega, by omega, by omega⟩⟩

/-- What placing a byte does: the cartridge gains banks where it does not reach the address, and the byte is put there. -/
theorem placeByte_eq (s : State) (a : Word) (v : Byte) :
    ∃ r : Byte, s.cart.romBanks.toNat ≤ r.toNat ∧ Readable (withRomBanks s r) a ∧
      s.placeByte a v = (withRomBanks s r).putByte (backingOf a) v := by
  cases hb : backingOf a with
  | content k =>
    have hreached : (decide (k < s.cart.contentLength) &&
        (decide (regionOf a ≠ .switchBank) || decide (1 < s.cart.romBanks.toNat))) = decide (Readable s a) := by
      rw [Bool.eq_iff_iff]
      simp only [Bool.and_eq_true, Bool.or_eq_true, decide_eq_true_eq, readable_iff_reached hb]
    simp only [State.placeByte, hb, hreached]
    by_cases hread : Readable s a
    · exact ⟨s.cart.romBanks, Nat.le_refl _, hread, by rw [decide_eq_true hread]; rfl⟩
    · have hbanks : s.cart.romBanks.toNat ≤ 2 := by
        have := mt (fun h => readable_of_two_banks h a) hread
        omega
      exact ⟨2, hbanks, readable_of_two_banks (s := withRomBanks s 2) (Nat.le_refl 2) a,
        by rw [decide_eq_false hread]; rfl⟩
  | io k | ram k | desc k | stack k =>
    have hread : Readable s a := readable_of_array (by rw [hb, Backing.address]; omega) s
    simp only [State.placeByte, hb]
    exact ⟨s.cart.romBanks, Nat.le_refl _, hread, rfl⟩
  | none => exact absurd hb (backingOf_ne_none a)

theorem placeByte_frame (s : State) (a : Word) (v : Byte) :
    (s.placeByte a v).pc = s.pc ∧ (s.placeByte a v).regs = s.regs ∧ (s.placeByte a v).run = s.run := by
  obtain ⟨r, -, -, h⟩ := placeByte_eq s a v
  rw [h]
  simp [withRomBanks]

theorem placeByte_canonical {s : State} (hc : s.Canonical) (a : Word) (v : Byte) : (s.placeByte a v).Canonical := by
  obtain ⟨r, -, -, h⟩ := placeByte_eq s a v
  rw [h]
  exact State.putByte_canonical (withRomBanks_canonical hc r) _ v

theorem memRead_placeByte_same {s : State} (hc : s.Canonical) (a : Word) (v : Byte) :
    memRead (s.placeByte a v) a = .ok v := by
  obtain ⟨r, -, hread, h⟩ := placeByte_eq s a v
  rw [h]
  exact memRead_putByte (withRomBanks_canonical hc r) hread

theorem memRead_placeByte_other {s : State} {a c : Word} {w : Byte} (v : Byte) (hne : backingOf c ≠ backingOf a)
    (hw : memRead s c = .ok w) : memRead (s.placeByte a v) c = .ok w := by
  obtain ⟨r, hr, -, h⟩ := placeByte_eq s a v
  obtain ⟨hread, hbyte⟩ := memRead_ok_iff.1 hw
  have hread' := readable_withRomBanks hr hread
  rw [h, memRead_congr_byte (s := withRomBanks s r) (State.putByte_cart _ _ _) (State.byteAt_putByte_other _ hne v)]
  exact memRead_ok_iff.2 ⟨hread', hbyte⟩

/-- Addresses one or two apart name different bytes: those of one byte are 0x6100 apart. -/
theorem backingOf_add_ne (a : Word) {d : Word} (hd : d = 1 ∨ d = 2) : backingOf a ≠ backingOf (a + d) := by
  intro h
  have hsum : (a + d).toNat = (a.toNat + d.toNat) % 65536 := BitVec.toNat_add a d
  have hd' : d.toNat = 1 ∨ d.toNat = 2 := by rcases hd with rfl | rfl <;> simp
  have hlt := a.isLt
  have hne : a ≠ a + d := fun e => by
    have := congrArg BitVec.toNat e
    omega
  obtain ⟨j, hj, ⟨_, _⟩ | ⟨_, _⟩⟩ := aliases_of_backingOf_eq hne h <;> omega

theorem backingOf_ne_succ (a : Word) : backingOf a ≠ backingOf (a + 1) := backingOf_add_ne a (.inl rfl)

theorem backingOf_ne_succ_succ (a : Word) : backingOf a ≠ backingOf (a + 1 + 1) := by
  have hsum : a + 1 + 1 = a + 2 := BitVec.add_assoc a 1 1
  rw [hsum]
  exact backingOf_add_ne a (.inr rfl)

/-- Three bytes placed from an address on are read there. -/
theorem memRead_placeBytes {s : State} (hc : s.Canonical) (a : Word) (b x y : Byte) :
    memRead (s.placeBytes a [b, x, y]) a = .ok b ∧ memRead (s.placeBytes a [b, x, y]) (a + 1) = .ok x ∧
    memRead (s.placeBytes a [b, x, y]) (a + 1 + 1) = .ok y := by
  have hc1 := placeByte_canonical hc a b
  have hc2 := placeByte_canonical hc1 (a + 1) x
  have hb1 := memRead_placeByte_other x (backingOf_ne_succ a) (memRead_placeByte_same hc a b)
  exact ⟨memRead_placeByte_other y (backingOf_ne_succ_succ a) hb1,
    memRead_placeByte_other y (backingOf_ne_succ (a + 1)) (memRead_placeByte_same hc1 (a + 1) x),
    memRead_placeByte_same hc2 (a + 1 + 1) y⟩

theorem placeBytes_frame (s : State) (a : Word) (vs : List Byte) :
    (s.placeBytes a vs).pc = s.pc ∧ (s.placeBytes a vs).regs = s.regs ∧ (s.placeBytes a vs).run = s.run := by
  induction vs generalizing s a with
  | nil => exact ⟨rfl, rfl, rfl⟩
  | cons v vs ih =>
    obtain ⟨hpc, hregs, hrun⟩ := placeByte_frame s a v
    obtain ⟨hpc', hregs', hrun'⟩ := ih (s.placeByte a v) (a + 1)
    exact ⟨hpc'.trans hpc, hregs'.trans hregs, hrun'.trans hrun⟩

/-- Three bytes always hold an instruction. -/
theorem decode_three (b x y : Byte) : ∃ rest, decode [b, x, y] = .ok (instrOf b x y, rest) := by
  have hle := operandBytes_le b
  obtain hn | hn | hn : operandBytes b = 0 ∨ operandBytes b = 1 ∨ operandBytes b = 2 := by omega
  · exact ⟨_, (decode_zero hn _).trans (by rw [instrOf_eq_of_take (x' := x) (y' := y) (by rw [hn]; rfl)])⟩
  · exact ⟨_, (decode_one hn _ _).trans (by rw [instrOf_eq_of_take (x' := x) (y' := y) (by rw [hn]; rfl)])⟩
  · exact ⟨_, decode_two hn _ _ _⟩

theorem decodeTableWord_eq_some {nbits w : Nat} {i : Instr} (h : decodeTableWord nbits w = some i) :
    ∃ b x y, tableBytes nbits w = [b, x, y] ∧ i = instrOf b x y := by
  refine ⟨_, _, _, rfl, ?_⟩
  obtain ⟨rest, hdec⟩ := decode_three (BitVec.ofNat 8 (w % 2 ^ nbits)) (BitVec.ofNat 8 (w % 2 ^ nbits / 256))
    (BitVec.ofNat 8 (w % 2 ^ nbits / 65536))
  simp only [decodeTableWord, tableBytes, hdec, Option.some.injEq] at h
  exact h.symm

/-- Settles O9: the bytes placed are read back at the pc, and they make the decoded instruction. -/
theorem placedInstructionRuns : Obligations.PlacedInstructionRuns := by
  intro s nbits w i hinv hdec
  obtain ⟨b, x, y, hbytes, rfl⟩ := decodeTableWord_eq_some hdec
  have hc := canonical_of_inv hinv
  have hrunning : State.Canonical { s with run := .running } := ⟨hc.content, hc.io, hc.ram, hc.desc, hc.stack⟩
  obtain ⟨hpc, hregs, hrun⟩ := placeBytes_frame { s with run := .running } s.pc [b, x, y]
  obtain ⟨h0, h1, h2⟩ := memRead_placeBytes hrunning s.pc b x y
  rw [State.withFetchWord, hbytes]
  refine ⟨hpc, hregs, step_of_cpuStep hrun (cpuStep_of_bytes (fetchByte_zero_ok ?_) (fun _ => fetchByte_ok ?_)
    (fun _ => fetchByte_ok ?_))⟩
  · rw [hpc]; exact h0
  · rw [hpc]; exact h1
  · rw [hpc, show s.pc + BitVec.ofNat 16 2 = s.pc + 1 + 1 from (BitVec.add_assoc s.pc 1 1).symm]; exact h2

end Sys2Proof.Machine

namespace Sys2Proof.Machine

/-! The faults of a step (60_exceptions.md section 1): what the fetch, the operands and the instructions can raise, and where. -/

/-- The causes a Cpu step raises: no code 2, 7 or 9 (R46, R70, R134). -/
def Raisable (c : FaultCause) : Prop := c.code ∉ [2, 7, 9]

/-- A fault of the instruction at `s.pc`, raised after at most two bytes (R133). -/
def CpuFaultAt (s : State) (f : Fault) : Prop :=
  ∃ c n, f = .cpu c s.pc (s.pc + BitVec.ofNat 16 n) ∧ n ≤ 2 ∧ Raisable c

theorem raisable_of_memRead {s : State} {a : Word} {c : FaultCause} (h : memRead s a = .error c) : Raisable c := by
  by_cases hr : Readable s a
  · rw [memRead_eq hr] at h
    cases h
  · rw [memRead_of_not_readable hr, Except.error.injEq] at h
    subst h
    split
    · exact (by decide : 8 ∉ [2, 7, 9])
    · split
      · exact (by decide : 6 ∉ [2, 7, 9])
      · exact (by decide : 8 ∉ [2, 7, 9])

theorem raisable_of_memWrite {s : State} {a : Word} {v : Byte} {c : FaultCause} (h : memWrite s a v = .error c) :
    Raisable c := by
  by_cases hw : Writable s a
  · rw [memWrite_eq hw] at h
    cases h
  · rw [memWrite_of_not_writable hw, Except.error.injEq] at h
    subst h
    split
    · exact (by decide : 5 ∉ [2, 7, 9])
    · split
      · exact (by decide : 6 ∉ [2, 7, 9])
      · exact (by decide : 8 ∉ [2, 7, 9])

theorem raisable_badRegisterIndex (v : Word) : Raisable (.badRegisterIndex v) := (by decide : 4 ∉ [2, 7, 9])

theorem raisable_of_checkIndex {v : Word} {c : FaultCause} (h : checkIndex v = .error c) : Raisable c := by
  by_cases hv : v.toNat < 8
  · rw [checkIndex_of_lt hv] at h
    cases h
  · rw [checkIndex_of_ge (by omega)] at h
    cases h
    exact raisable_badRegisterIndex v

theorem operand_bytes_le (o : Operand) : o.bytes ≤ 2 := by
  have hmode : ∀ m : Mode, m.bytes ≤ 2 := by intro m; cases m <;> decide
  exact hmode o.mode

theorem resolve_faultAt {s : State} {o : Operand} {f : Fault} (h : resolve s o = .error f) : CpuFaultAt s f := by
  obtain ⟨c, n, rfl, -, hn, hcause⟩ := resolve_error h
  refine ⟨c, n, rfl, hn.trans (operand_bytes_le o), ?_⟩
  rcases hcause with ⟨a, ha⟩ | ⟨v, rfl⟩
  · exact raisable_of_memRead ha
  · exact raisable_badRegisterIndex v

/-- The outcome is no fault but one of this instruction. -/
def FaultsAt (s : State) (r : Result) : Prop := ∀ f, r = .fault f → CpuFaultAt s f

theorem faultsAt_next (s t : State) : FaultsAt s (.next t) := nofun

theorem faultsAt_raise (s : State) {n : Nat} {c : FaultCause} (hn : n ≤ 2) (hc : Raisable c) : FaultsAt s (raise s n c) := by
  intro f h
  cases h
  exact ⟨c, n, rfl, hn, hc⟩

theorem faultsAt_withOperand {s : State} {o : Operand} {k : Word → Result} (hk : ∀ v, FaultsAt s (k v)) :
    FaultsAt s (withOperand s o k) := by
  intro f h
  cases hr : resolve s o with
  | ok v => exact hk v f ((withOperand_ok hr k).symm.trans h)
  | error g =>
    cases (withOperand_error hr k).symm.trans h
    exact resolve_faultAt hr

theorem faultsAt_attempt {α : Type} {s : State} {n : Nat} {r : Except FaultCause α} {k : α → Result} (hn : n ≤ 2)
    (hr : ∀ c, r = .error c → Raisable c) (hk : ∀ v, FaultsAt s (k v)) : FaultsAt s (attempt s n r k) := by
  cases r with
  | ok v => exact hk v
  | error c => exact faultsAt_raise s hn (hr c rfl)

/-- R133: every fault of an instruction is at its address and after at most two bytes. -/
theorem exec_faultsAt (i : Instr) (s : State) : FaultsAt s (exec i s) := by
  have hfinish : ∀ (n : Nat) (t : State), FaultsAt s (finish n t) := fun n t => faultsAt_next s _
  have hread : ∀ {a : Word} (c : FaultCause), memRead s a = .error c → Raisable c := fun _ => raisable_of_memRead
  have hwrite : ∀ {a : Word} {v : Byte} (c : FaultCause), memWrite s a v = .error c → Raisable c :=
    fun _ => raisable_of_memWrite
  have hindex : ∀ {v : Word} (c : FaultCause), checkIndex v = .error c → Raisable c := fun _ => raisable_of_checkIndex
  cases i with
  | halt => exact faultsAt_next s _
  | noop m | not m => exact hfinish 0 _
  | lda o | cmp o | add o | and o | or o | shr o | shl o => exact faultsAt_withOperand fun v => hfinish _ _
  | sam o | psh o =>
    exact faultsAt_withOperand fun v => faultsAt_attempt (operand_bytes_le o) hwrite fun t => hfinish _ _
  | sar o => exact faultsAt_withOperand fun v => faultsAt_attempt (operand_bytes_le o) hindex fun i => hfinish _ _
  | jmp x => exact (exec_jmp x s) ▸ faultsAt_next s _
  | jz x => exact (exec_jz x s) ▸ faultsAt_next s _
  | jnz x => exact (exec_jnz x s) ▸ faultsAt_next s _
  | jmpM3 x | jmpM4 x | jmpM5 x | jmpM6 x | jmpM7 x =>
    exact faultsAt_raise s (n := 1) (by decide) (by decide : 3 ∉ [2, 7, 9])
  | popPc => exact faultsAt_attempt (s := s.spUp) (n := 0) (by decide) hread fun b => faultsAt_next _ _
  | pop o =>
    exact faultsAt_withOperand (s := s.spUp) fun v => faultsAt_attempt (operand_bytes_le o) hindex fun i =>
      faultsAt_attempt (operand_bytes_le o) hread fun b => faultsAt_next _ _
  | unknown14 m | unknown15 m | unknown16 m | unknown17 m | unknown18 m | unknown19 m | unknown20 m | unknown21 m
  | unknown22 m | unknown23 m | unknown24 m | unknown25 m | unknown26 m | unknown27 m | unknown28 m | unknown29 m
  | unknown30 m | unknown31 m => exact faultsAt_raise s (n := 0) (by decide) (by decide : 1 ∉ [2, 7, 9])

theorem fetchByte_faultAt {s : State} {n : Nat} {f : Fault} (hn : n ≤ 2) (h : fetchByte s n = .error f) : CpuFaultAt s f := by
  unfold fetchByte at h
  split at h
  · cases h
  · next c hc =>
    cases h
    exact ⟨c, n, rfl, hn, raisable_of_memRead hc⟩

theorem fetchSecond_faultAt {s : State} {b x : Byte} {f : Fault} (h : fetchSecond s b x = .error f) : CpuFaultAt s f := by
  unfold fetchSecond at h
  split at h
  · cases h
    exact ⟨_, 1, rfl, by decide, raisable_badRegisterIndex _⟩
  · exact fetchByte_faultAt (Nat.le_refl 2) h

theorem fetch_faultAt {s : State} {f : Fault} (h : fetch s = .error f) : CpuFaultAt s f := by
  cases h0 : fetchByte s 0 with
  | error g =>
    cases (fetch_of_head_error h0).symm.trans h
    exact fetchByte_faultAt (by decide) h0
  | ok b =>
    have hle := operandBytes_le b
    by_cases hn : operandBytes b = 0
    · cases (fetch_zero h0 hn).symm.trans h
    · cases h1 : fetchByte s 1 with
      | error g =>
        cases (fetch_of_first_error h0 (by omega) h1).symm.trans h
        exact fetchByte_faultAt (by decide) h1
      | ok x =>
        by_cases hone : operandBytes b = 1
        · cases (fetch_one h0 hone h1).symm.trans h
        · have htwo : operandBytes b = 2 := by omega
          cases h2 : fetchSecond s b x with
          | error g =>
            cases (fetch_of_second_error h0 htwo h1 h2).symm.trans h
            exact fetchSecond_faultAt h2
          | ok y => cases (fetch_two h0 htwo h1 h2).symm.trans h

theorem cpuStep_faultAt {s : State} {f : Fault} (h : cpuStep s = .fault f) : CpuFaultAt s f := by
  unfold cpuStep at h
  split at h
  · next i _ => exact exec_faultsAt i s f h
  · next g hg =>
    cases h
    exact fetch_faultAt hg

/-- A step faults in its Cpu step, or in the refresh service that a Cpu step has requested. -/
theorem step_fault {s : State} {f : Fault} (h : step s = .fault f) :
    cpuStep s = .fault f ∨ ∃ u, cpuStep s = .next u ∧ u.io.read 0x00 = 1 ∧ refreshService u = .fault f := by
  unfold step at h
  split at h
  · cases hcpu : cpuStep s with
    | next u =>
      simp only [hcpu, afterCpuStep, refreshCheck] at h
      split at h
      · next hone => exact .inr ⟨u, rfl, hone, h⟩
      · cases h
    | fault g =>
      simp only [hcpu, afterCpuStep, Host.Outcome.fault.injEq] at h
      exact .inl (congrArg _ h)
    | refused x =>
      simp only [hcpu, afterCpuStep] at h
      cases h
  · cases h
  · cases h

/-- Settles O10: the two phases, and what each can raise. -/
theorem faultRecordsAreAsSpecified : Obligations.FaultRecordsAreAsSpecified := by
  intro s f h
  rcases step_fault h with hcpu | ⟨u, hcpu, hone, hservice⟩
  · obtain ⟨c, n, rfl, hn, hc⟩ := cpuStep_faultAt hcpu
    refine .inl ⟨c, _, rfl, ?_, hc⟩
    obtain rfl | rfl | rfl : n = 0 ∨ n = 1 ∨ n = 2 := by omega
    · exact .inl (BitVec.add_zero s.pc)
    · exact .inr (.inl rfl)
    · exact .inr (.inr rfl)
  · obtain ⟨a, k, rfl, hk⟩ := refreshService_fault hservice
    exact .inr ⟨a, k, u, hcpu, hone, hk, rfl⟩

end Sys2Proof.Machine

namespace Sys2Proof.Machine

/-! Reset (spec 10_state.md section 9, 70_reset_and_hazards.md section 1). -/

/-- Settles O11: the fields of `State.resetWith`. -/
theorem resetValues : Obligations.ResetValues := by
  refine fun h content0 => ⟨rfl, fun i => ?_, rfl, rfl, rfl, rfl, rfl, fun k => ⟨rfl, rfl, rfl, rfl, rfl⟩⟩
  simp [State.reg, State.resetWith]

theorem resetWith_inv {h : Header} {content0 : Memory} (hwf : content0.wf = true)
    (hwithin : content0.within h.contentLength = true) : (State.resetWith h content0).inv = true :=
  inv_iff.2 ⟨⟨hwf, hwithin, rfl, rfl, rfl, rfl, rfl, rfl, rfl, rfl, rfl, (by decide : (0 : Byte).toNat < 8)⟩,
    (by decide : (0 : Byte) ≠ 1)⟩

/-- Settles O12: the content is as given, and every other store is empty. -/
theorem resetMeetsTheInvariant : Obligations.ResetMeetsTheInvariant :=
  ⟨resetWith_inv rfl rfl, fun _ _ => resetWith_inv⟩

end Sys2Proof.Machine

namespace Sys2Proof.Machine

/-! The picture of spec 47_tile_renderer.md: a pixel of a tile by its row, a tile drawn in its cell, and the descriptor entries
drawn in order, the last one that covers a pixel winning. -/

/-! ### A pixel by its tile row -/

/-- Settles O53: three bits of the window are the same three bits of the row's 24-bit word, for each x. -/
theorem pixelsByTileRow : Obligations.PixelsByTileRow := by
  intro tile x y hlen hx hy
  rw [pixelsAreThreeBitsOfTheWindow tile (8 * y + x) hlen (by omega)]
  have hbyte : (8 * y + x) * 3 / 8 = 3 * y + 3 * x / 8 := by omega
  have hshift : (8 * y + x) * 3 % 8 = 3 * x % 8 := by omega
  rw [hbyte, hshift]
  have h0 := (tile.getD (3 * y) 0).isLt
  have h1 := (tile.getD (3 * y + 1) 0).isLt
  have h2 := (tile.getD (3 * y + 2) 0).isLt
  interval_cases x
  all_goals
    simp only [Nat.reduceMul, Nat.reduceDiv, Nat.reduceMod, Nat.reducePow, Nat.reduceAdd, Nat.add_zero, Nat.add_assoc]
    split <;> omega

/-- The pixel at (x, y) of a tile that was read, by the row of the content (R114, R116). -/
theorem pixelOf_tileAt {s : State} {t : Byte} {tile : List Byte} (h : tileAt s t = .ok tile) {x y : Nat} (hx : x < 8)
    (hy : y < 8) : (pixelOf tile (8 * y + x)).toNat = tileRow s t y / 2 ^ (3 * x) % 8 := by
  obtain ⟨htile, -⟩ := tileBytesAt_ok h
  have hbyte : ∀ j < 24, tile.getD j 0 = s.content.read (0x4000 + t.toNat * 24 + j) := by
    intro j hj
    rw [htile, List.getD_eq_getElem _ _ (by simpa using hj)]
    simp
  rw [pixelsByTileRow tile x y (by simp [htile]) hx hy, hbyte _ (by omega), hbyte _ (by omega), hbyte _ (by omega)]
  rfl

/-! ### Where a pixel lands -/

/-- R118: a place of the framebuffer is that of its own coordinates. -/
theorem fbIndex_eq_some_iff {fx fy : Int} {x y : Nat} (hx : x < 128) (hy : y < 64) :
    fbIndex fx fy = some (x + y * 128) ↔ fx = x ∧ fy = y := by
  constructor
  · intro h
    obtain ⟨x', y', rfl, rfl, hx', hy', hp⟩ := fbIndex_eq_some h
    omega
  · rintro ⟨rfl, rfl⟩
    rw [fbIndex, if_pos (by omega), Int.toNat_natCast, Int.toNat_natCast]

/-- R117: pixel `i` of the cell (cx, cy) lands on (x, y) exactly where its own coordinates less the scroll are those. -/
theorem pixelIndex_eq_some_iff {sx sy cx cy : Byte} {i x y : Nat} (hx : x < 128) (hy : y < 64) :
    pixelIndex sx sy cx cy i = some (x + y * 128) ↔
      cx.toNat * 8 + i % 8 = x + sx.toNat ∧ cy.toNat * 8 + i / 8 = y + sy.toNat := by
  rw [pixelIndex, fbIndex_eq_some_iff hx hy]
  omega

theorem covers_iff (s : State) (x y k : Nat) :
    covers s x y k = true ↔
      ((s.desc.read (3 * k + 1)).toNat * 8 ≤ x + (s.io.read 1).toNat ∧
        x + (s.io.read 1).toNat < (s.desc.read (3 * k + 1)).toNat * 8 + 8) ∧
      (s.desc.read (3 * k + 2)).toNat * 8 ≤ y + (s.io.read 2).toNat ∧
        y + (s.io.read 2).toNat < (s.desc.read (3 * k + 2)).toNat * 8 + 8 := by
  simp only [covers, Bool.and_eq_true, decide_eq_true_eq, and_assoc]

/-! ### Entries drawn in order -/

/-- One entry draws the pixels it covers, and leaves the others. -/
theorem drawEntry_read {s : State} {k : Nat} {fb fb' : Memory} (hwf : fb.wf = true) (h : drawEntry s k fb = .ok fb')
    {x y : Nat} (hx : x < 128) (hy : y < 64) :
    fb'.wf = true ∧
    (fb'.read (x + y * 128)).toNat =
      if covers s x y k = true then entryPixel s x y k else (fb.read (x + y * 128)).toNat := by
  cases htile : tileAt s (s.desc.read (3 * k)) with
  | error c =>
    rw [drawEntry, htile] at h
    cases h
  | ok tile =>
    rw [drawEntry, htile] at h
    cases h
    obtain ⟨hwf', hnone, hone⟩ := drawPixels_read (sx := s.io.read 1) (sy := s.io.read 2) (cx := s.desc.read (3 * k + 1))
      (cy := s.desc.read (3 * k + 2)) (tile := tile) (is := List.range 64) hwf (x + y * 128)
    refine ⟨hwf', ?_⟩
    simp only [ne_eq, pixelIndex_eq_some_iff hx hy, List.mem_range] at hnone hone
    split
    · next hcov =>
      obtain ⟨⟨hxlo, hxhi⟩, hylo, hyhi⟩ := (covers_iff s x y k).1 hcov
      rw [hone (8 * (y + (s.io.read 2).toNat - (s.desc.read (3 * k + 2)).toNat * 8) +
        (x + (s.io.read 1).toNat - (s.desc.read (3 * k + 1)).toNat * 8)) (by omega) (by omega) (by omega)]
      exact pixelOf_tileAt htile (by omega) (by omega)
    · next hcov =>
      rw [covers_iff] at hcov
      rw [hnone fun i hi hland => hcov (by omega)]

/-- What the listed entries give a pixel, drawn in order over the value `d`: that of the last one that covers it (R118). -/
def compositeOver (s : State) (x y d : Nat) (ks : List Nat) : Nat :=
  match (ks.filter (covers s x y)).getLast? with
  | none => d
  | some k => entryPixel s x y k

theorem composite_eq (s : State) (x y : Nat) : composite s x y = compositeOver s x y 0 (List.range 153) := by
  unfold composite compositeOver
  cases ((List.range 153).filter (covers s x y)).getLast? <;> rfl

/-- A first entry shows where it covers the pixel and no later one does. -/
theorem compositeOver_cons (s : State) (x y d k : Nat) (ks : List Nat) :
    compositeOver s x y d (k :: ks) =
      compositeOver s x y (if covers s x y k = true then entryPixel s x y k else d) ks := by
  by_cases h : covers s x y k = true
  · simp only [compositeOver, List.filter_cons_of_pos h, if_pos h, List.getLast?_cons]
    cases (ks.filter (covers s x y)).getLast? <;> rfl
  · simp only [compositeOver, List.filter_cons_of_neg h, if_neg h]

theorem drawEntries_read {s : State} {ks : List Nat} {fb fb' : Memory} (hwf : fb.wf = true)
    (h : drawEntries s ks fb = .ok fb') {x y : Nat} (hx : x < 128) (hy : y < 64) :
    (fb'.read (x + y * 128)).toNat = compositeOver s x y (fb.read (x + y * 128)).toNat ks := by
  induction ks generalizing fb with
  | nil =>
    cases h
    rfl
  | cons k ks ih =>
    cases hentry : drawEntry s k fb with
    | error c =>
      rw [drawEntries, hentry] at h
      cases h
    | ok fb1 =>
      rw [drawEntries, hentry] at h
      obtain ⟨hwf1, hread⟩ := drawEntry_read hwf hentry hx hy
      rw [ih hwf1 h, hread, compositeOver_cons]

/-- Clearing the trigger changes neither the scroll nor a tile. -/
theorem composite_beginRefresh (s : State) (x y : Nat) : composite (beginRefresh s) x y = composite s x y := by
  have hread : ∀ k, k ≠ 0 → (beginRefresh s).io.read k = s.io.read k := fun k hk => Memory.read_write_other _ _ hk
  have hcovers : covers (beginRefresh s) x y = covers s x y := by
    funext k
    simp only [covers, hread 1 (by decide), hread 2 (by decide), beginRefresh_desc]
  have hpixel : entryPixel (beginRefresh s) x y = entryPixel s x y := by
    funext k
    simp only [entryPixel, tileRow, hread 1 (by decide), hread 2 (by decide), beginRefresh_desc, beginRefresh_content]
  simp only [composite, hcovers, hpixel]

/-- Settles O51: the 153 entries drawn over a cleared framebuffer. -/
theorem refreshDrawsTheComposite : Obligations.RefreshDrawsTheComposite := by
  intro s t h x y hx hy
  obtain ⟨fb, hrender, -, rfl⟩ := refreshService_next h
  rw [endRefresh_fb, drawEntries_read rfl hrender hx hy, ← composite_beginRefresh, composite_eq]
  rfl

/-- Settles O54: drawing keeps the framebuffer one of palette indices. -/
theorem framebufferHoldsPaletteIndices : Obligations.FramebufferHoldsPaletteIndices := by
  intro s t h p
  obtain ⟨fb, -, hfb, rfl⟩ := refreshService_next h
  simp only [Memory.isFramebuffer, Bool.and_eq_true] at hfb
  exact Memory.read_palette hfb.2 p

end Sys2Proof.Machine

namespace Sys2Proof.Machine

/-! The refresh service of spec 48_system_loop.md section 1: what it reads and writes besides the picture, and when it faults. -/

theorem refreshCheck_of_ne {s : State} (h : s.io.read 0x00 ≠ 1) : refreshCheck s = .next s := if_neg h

theorem refreshCheck_of_one {s : State} (h : s.io.read 0x00 = 1) : refreshCheck s = refreshService s := if_pos h

theorem nextSnapshot_of_cons {s : State} {b : Byte} {rest : List Byte} (h : s.snapshots = b :: rest) : nextSnapshot s = b := by
  rw [nextSnapshot, h]

/-- Settles O50: the check's two branches, and the fields of a completed service. -/
theorem refreshTouchesOnlyItsOwn : Obligations.RefreshTouchesOnlyItsOwn := by
  refine fun s => ⟨refreshCheck_of_ne, refreshCheck_of_one, fun t hwf h => ?_⟩
  obtain ⟨fb, -, -, rfl⟩ := refreshService_next h
  obtain ⟨h0, h5, hother⟩ := read_io_after_service s fb hwf
  refine ⟨h0, fun b rest hq => ⟨h5.trans (nextSnapshot_of_cons hq), ?_⟩, hother, rfl, rfl⟩
  rw [endRefresh_snapshots, beginRefresh_snapshots, hq]
  rfl

/-- D7: a tile that lies past the content is reported at its first byte. -/
theorem tileAt_of_short {s : State} (t : Byte) (h : s.cart.contentLength ≤ 0x4000) :
    tileAt s t = .error (.contentOutOfRange (BitVec.ofNat 16 (0xA100 + t.toNat * 24)) (0x4000 + t.toNat * 24)) := by
  have hfirst : tileByteAt s t 0 = .error (.contentOutOfRange _ (0x4000 + t.toNat * 24)) := contentAt_of_le (by omega) _
  rw [tileAt, List.range_succ_eq_map, tileBytesAt, hfirst]
  rfl

/-- The bank sizes leave no content length between 0x4000 and 0x6000. -/
theorem contentLength_gap {h : Header} (hlen : 0x4000 < h.contentLength) : 0x6000 ≤ h.contentLength := by
  unfold Header.contentLength at hlen ⊢
  omega

/-- Settles O55: entry 0's first tile byte faults in a short content, and a longer one holds every tile. -/
theorem refreshFaultsExactlyWithoutTileData : Obligations.RefreshFaultsExactlyWithoutTileData := by
  refine fun s => ⟨fun hshort => ?_, fun hlong => ?_, fun hrom hvideo => ?_⟩
  · have hentry : drawEntry (beginRefresh s) 0 [] = .error (.contentOutOfRange
        (BitVec.ofNat 16 (0xA100 + (s.desc.read 0).toNat * 24)) (0x4000 + (s.desc.read 0).toNat * 24)) := by
      rw [drawEntry, tileAt_of_short (s := beginRefresh s) _ hshort]
      rfl
    refine refreshService_of_error ?_
    rw [render, List.range_succ_eq_map, drawEntries, hentry]
  · obtain ⟨fb, hfb⟩ := drawEntries_of_inside (s := beginRefresh s) ((by decide : 0x5800 ≤ 0x6000).trans
      (contentLength_gap hlong)) (List.range 153) []
    exact ⟨_, refreshService_of_ok hfb⟩
  · unfold Header.contentLength
    omega

end Sys2Proof.Machine

namespace Sys2Proof.Machine

/-! The host's transactions of spec 48_system_loop.md: loading a cartridge, and a step with an input byte. -/

/-! ### load -/

/-- Bytes written inside a store of `n` bytes keep it one. -/
theorem writeAll_within {m : Memory} {n k : Nat} {vs : List Byte} (h : m.within n = true) (hk : k + vs.length ≤ n) :
    (m.writeAll k vs).within n = true := by
  induction vs generalizing m k with
  | nil => exact h
  | cons v vs ih =>
    rw [List.length_cons] at hk
    exact ih (Memory.write_within v h (by omega)) (by omega)

theorem read_writeAll_below {m : Memory} {j k : Nat} (vs : List Byte) (hj : j < k) : (m.writeAll k vs).read j = m.read j := by
  induction vs generalizing m k with
  | nil => rfl
  | cons v vs ih => exact (ih (by omega)).trans (Memory.read_write_other _ v (by omega))

/-- Bytes written from `k` on read back. -/
theorem read_writeAll {m : Memory} {k i : Nat} {vs : List Byte} (h : m.wf = true) (hi : i < vs.length) :
    (m.writeAll k vs).read (k + i) = vs.getD i 0 := by
  induction vs generalizing m k i with
  | nil => cases hi
  | cons v vs ih =>
    rw [Memory.writeAll]
    cases i with
    | zero => exact (read_writeAll_below vs (by omega)).trans (Memory.read_write_same k v h)
    | succ i =>
      rw [show k + (i + 1) = k + 1 + i by omega]
      exact ih (Memory.write_wf k v h) (Nat.lt_of_succ_lt_succ hi)

/-- Settles O56: the bytes are written from offset 0 on into an empty content. -/
theorem loadPlacesTheCartridge : Obligations.LoadPlacesTheCartridge := by
  refine fun h content0 => ⟨fun hlen => ⟨_, if_pos hlen, ?_, rfl, fun k hk => ?_⟩, fun hlen => if_neg hlen⟩
  · exact resetWith_inv (Memory.writeAll_wf 0 content0 rfl) (writeAll_within rfl (by omega))
  · rw [← Nat.zero_add k]
    exact (read_writeAll rfl hk).trans (by rw [Nat.zero_add])

/-! ### step(snapshot): the Cpu step does not see the byte queued -/

theorem cpuStep_of_fetch {s : State} {i : Instr} (h : fetch s = .ok i) : cpuStep s = exec i s := by
  simp only [cpuStep, h]

/-- The state with one byte queued. -/
def queue (b : Byte) : State → State := mapSpQueue id fun _ => [b]

theorem sameSp_queue (b : Byte) : SameSp fun s t => t = queue b s where
  sp := by rintro s _ rfl; rfl
  setSp := by rintro s _ rfl x; rfl

/-- A Cpu step carries whatever byte is queued along. -/
theorem cpuStep_queue (b : Byte) (s : State) : cpuStep (queue b s) = mapNext (queue b) (cpuStep s) :=
  eq_mapNext_of_alike ((blind_mapSpQueue id fun _ => [b]).cpuStep (sameSp_queue b) rfl)

/-- A service that faults does so before it takes the byte. -/
theorem refreshService_queue_fault {u : State} {f : Fault} (b : Byte) (h : refreshService u = .fault f) :
    refreshService (queue b u) = .fault f := by
  have hrender : render (beginRefresh (queue b u)) [] = render (beginRefresh u) [] :=
    render_congr (s := beginRefresh u) (t := beginRefresh (queue b u)) rfl rfl rfl rfl []
  cases hr : render (beginRefresh u) [] with
  | ok fb => cases (refreshService_of_ok hr).symm.trans h
  | error c =>
    cases (refreshService_of_error hr).symm.trans h
    exact refreshService_of_error (hrender.trans hr)

/-- A step that faults with one byte queued faults with any. -/
theorem step_queue_fault {s : State} {f : Fault} (hrun : s.run = .running) (b b' : Byte) (h : step (queue b s) = .fault f) :
    step (queue b' s) = .fault f := by
  have hcpu' : cpuStep (queue b' s) = mapNext (queue b') (cpuStep (queue b s)) := cpuStep_queue b' (queue b s)
  rw [step_of_cpuStep (s := queue b' s) hrun hcpu']
  rcases step_fault h with hcpu | ⟨u, hcpu, hone, hservice⟩
  · rw [hcpu]
    rfl
  · rw [hcpu]
    have hcheck : refreshCheck (queue b' u) = refreshService (queue b' u) := refreshCheck_of_one hone
    exact hcheck.trans (refreshService_queue_fault b' hservice)

/-- Everything a step with the byte `b` queued can answer: no refresh, and then the queue is still that byte, or a refresh that
has put it into io[0x05]. -/
theorem step_queue_next {s u : State} {b : Byte} (hs : s.Sound) (h : step (queue b s) = .next u) :
    (u.refreshes = s.refreshes + 1 ∧ u.io.read 0x05 = b) ∨
    (u.refreshes = s.refreshes ∧ ∀ b' : Byte, step (queue b' s) = .next (queue b' u)) := by
  obtain ⟨i, w, hrun, hfetch, hexec, hcheck⟩ := step_next h
  have hcpu : cpuStep (queue b s) = .next w := (cpuStep_of_fetch hfetch).trans hexec
  obtain ⟨⟨-, -, hqueue, hcount⟩, -⟩ := noInstructionTouchesTheRest i _ w hexec
  have hqs : (queue b s).Sound := { hs with }
  rcases refreshCheck_next hcheck with ⟨hne, rfl⟩ | ⟨-, hservice⟩
  · refine .inr ⟨hcount, fun b' => ?_⟩
    have hcpu' : cpuStep (queue b' s) = mapNext (queue b') (cpuStep (queue b s)) := cpuStep_queue b' (queue b s)
    rw [hcpu] at hcpu'
    rw [step_of_cpuStep (s := queue b' s) hrun hcpu']
    exact refreshCheck_of_ne hne
  · obtain ⟨fb, -, -, rfl⟩ := refreshService_next hservice
    obtain ⟨-, h5, -⟩ := read_io_after_service w fb (exec_sound hqs hexec).ioWf
    exact .inl ⟨congrArg (· + 1) hcount, h5.trans (nextSnapshot_of_cons hqueue)⟩

/-- Settles O57: a refresh takes the byte, and any other step drops it. -/
theorem snapshotIsUsedOnlyByARefresh : Obligations.SnapshotIsUsedOnlyByARefresh := by
  intro s t b hinv hrun h
  have hsystem : ∀ b', systemStep b' s = match step (queue b' s) with
      | .next t => .ok { t with snapshots := [] }
      | .fault f => .ok { s with run := .faulted f }
      | .refused r => .error r := fun _ => rfl
  rcases systemStep_ok h with ⟨u, hstep, rfl⟩ | ⟨f, hstep, rfl⟩
  · rcases step_queue_next (inv_iff.1 hinv).1 hstep with hrefresh | ⟨hcount, hany⟩
    · exact .inl hrefresh
    · exact .inr ⟨hcount, fun b' => by rw [hsystem, hany b']; rfl⟩
  · exact .inr ⟨rfl, fun b' => by rw [hsystem, step_queue_fault hrun b b' hstep]⟩

/-! ### The buttons -/

/-- A bit that has a meaning is set by the buttons held, and by the host's choice of bit 6 never. -/
theorem getLsbD_snapshotOf_of_ne (bit6 : Bool) (held : List Button) {n : Nat} (hn : n ≠ 6) :
    (snapshotOf bit6 held).getLsbD n = decide (∃ k ∈ held, k.bit = n) := by
  rw [getLsbD_snapshotOf, decide_eq_false hn, Bool.and_false, Bool.or_false, Bool.eq_iff_iff]
  simp only [List.any_eq_true, decide_eq_true_eq]

/-- A bit that one button alone sets. -/
theorem getLsbD_snapshotOf_button (bit6 : Bool) (held : List Button) {key : Button} (hn : key.bit ≠ 6)
    (halone : ∀ k : Button, k.bit = key.bit → k = key) : (snapshotOf bit6 held).getLsbD key.bit = decide (key ∈ held) := by
  rw [getLsbD_snapshotOf_of_ne bit6 held hn, decide_eq_decide]
  exact ⟨fun ⟨k, hk, hbit⟩ => halone k hbit ▸ hk, fun hk => ⟨key, hk, rfl⟩⟩

/-- Bit 7 is set by either of two buttons (R31). -/
theorem getLsbD_snapshotOf_seven (bit6 : Bool) (held : List Button) :
    (snapshotOf bit6 held).getLsbD 7 = decide (.select ∈ held ∨ .start ∈ held) := by
  rw [getLsbD_snapshotOf_of_ne bit6 held (by decide), decide_eq_decide]
  have hbit : ∀ k : Button, k.bit = 7 ↔ k = .select ∨ k = .start := by intro k; cases k <;> simp [Button.bit]
  simp only [hbit, and_or_left, exists_or, exists_eq_right]

/-- Settles O58: the byte in io[0x05] is the snapshot, bit by bit. -/
theorem snapshotBitsAreTheButtons : Obligations.SnapshotBitsAreTheButtons := by
  intro s t bit6 held hinv hrun h hcount
  have h5 : t.io.read 0x05 = snapshotOf bit6 held := by
    rcases snapshotIsUsedOnlyByARefresh s t _ hinv hrun h with ⟨-, h5⟩ | ⟨hsame, -⟩
    · exact h5
    · omega
  obtain ⟨hio, -⟩ := arraysAreReadAndWrittenInPlace t 0x8005 0
  obtain ⟨hread, -⟩ := hio (by decide) (by decide)
  refine ⟨_, hread.trans (congrArg Except.ok h5), ?_, ?_, ?_, ?_, ?_, ?_, getLsbD_snapshotOf_seven bit6 held⟩
  · exact getLsbD_snapshotOf_button bit6 held (key := .a) (by decide) (by intro k; cases k <;> simp [Button.bit])
  · exact getLsbD_snapshotOf_button bit6 held (key := .b) (by decide) (by intro k; cases k <;> simp [Button.bit])
  · exact getLsbD_snapshotOf_button bit6 held (key := .up) (by decide) (by intro k; cases k <;> simp [Button.bit])
  · exact getLsbD_snapshotOf_button bit6 held (key := .right) (by decide) (by intro k; cases k <;> simp [Button.bit])
  · exact getLsbD_snapshotOf_button bit6 held (key := .down) (by decide) (by intro k; cases k <;> simp [Button.bit])
  · exact getLsbD_snapshotOf_button bit6 held (key := .left) (by decide) (by intro k; cases k <;> simp [Button.bit])

end Sys2Proof.Machine
